-- ==== Sys2Proof/Word.lean ====
section
/-! DEFINITION. The byte and the 32-bit word of the Rivet VM core (`00_scope.md` R5: `XLEN` = `ILEN` = 32, a byte is 8 bits). -/

namespace Sys2Proof

/-- The unit a memory address names (R5). -/
abbrev Byte := BitVec 8

/-- A general register, an instruction word, an address (R5, R15, R30). -/
abbrev Word := BitVec 32

end Sys2Proof
end

