-- ==== Sys2Proof/Machine/Errors.lean ====
section
/-! DEFINITION. The errors of `60_exceptions.md` R150 and the permissions they carry (`10_state.md` R21). -/

namespace Sys2Proof

/-- A permission an access can need or a region can grant (`10_state.md` R21). Execute is never needed (`20_memory.md` R53). -/
inductive Permission where
  | read
  | write
  | execute
  deriving DecidableEq, Repr

/-- The `MemoryError` family of R150, with the payloads R150 gives (D24). -/
inductive MemoryError where
  /-- R153: the access does not lie inside the buffer. -/
  | outOfBounds
  /-- R154: no region owns the first byte of the access. -/
  | invalidAddress
  /-- R155: the owning region lacks `needed`; `addr` is the address of the access. -/
  | permissionDenied (needed : Permission) (addr : Word)
  /-- R156: `addr` is not a multiple of `size`. -/
  | unalignedAccess (addr : Word) (size : Nat)
  /-- R157: kept so that the type matches the document; nothing raises it unless `LOAD_LEN_ERR` is configured to. -/
  | outOfMemory
  deriving DecidableEq, Repr

/-- The `DecodeError` family of R150. -/
inductive DecodeError where
  /-- R151: bits 7:0 of the fetched word are no assigned opcode; the payload is those 8 bits. -/
  | unknownOpcode (op : Byte)
  deriving DecidableEq, Repr

/-- The encoder's own error (R158): an immediate outside the range of its width. -/
inductive EncodeError where
  /-- `ImmediateOutOfRange(value, N)` (`30_encoding.md` R80, D28). -/
  | immediateOutOfRange (value : Int) (width : Nat)
  deriving DecidableEq, Repr

/-- The `Error` that `step` and `run` return: "either a `DecodeError` or a `MemoryError`" (R150). -/
inductive Error where
  | decode (e : DecodeError)
  | memory (e : MemoryError)
  deriving DecidableEq, Repr

end Sys2Proof
end

