-- ==== Sys2Proof/Config.lean ====
section
/-! DEFINITION. What is "configuration, fixed for the life of the machine" (`10_state.md` R26): the parameters of `00_scope.md` R6
as plain data, the field layouts of each opcode among them. Their defaults, their legal values, and the functions two of the tables
stand for are in `Machine/Parameters.lean`. -/

namespace Sys2Proof

/-- The fifteen instructions in the order the document lists them (R1, R76). -/
inductive Mnemonic where
  | add | sub | mul | and | or | xor | shl | shr | shrA | addI | lui | lw | sw | syscall | li
  deriving DecidableEq, Repr

/-- All mnemonics, in listing order. -/
def Mnemonic.all : List Mnemonic :=
  [.add, .sub, .mul, .and, .or, .xor, .shl, .shr, .shrA, .addI, .lui, .lw, .sw, .syscall, .li]

/-- The parameter `OPC` (R6): the opcode byte of each mnemonic. -/
structure OpcodeMap where
  add : Byte
  sub : Byte
  mul : Byte
  and : Byte
  or : Byte
  xor : Byte
  shl : Byte
  shr : Byte
  shrA : Byte
  addI : Byte
  lui : Byte
  lw : Byte
  sw : Byte
  syscall : Byte
  li : Byte
  deriving DecidableEq, Repr

/-- `OPC.<mnemonic>` of the spec's pseudocode. -/
def OpcodeMap.code (m : OpcodeMap) : Mnemonic → Byte
  | .add => m.add
  | .sub => m.sub
  | .mul => m.mul
  | .and => m.and
  | .or => m.or
  | .xor => m.xor
  | .shl => m.shl
  | .shr => m.shr
  | .shrA => m.shrA
  | .addI => m.addI
  | .lui => m.lui
  | .lw => m.lw
  | .sw => m.sw
  | .syscall => m.syscall
  | .li => m.li

/-- `OPC` is "required to be injective" (R76): no two mnemonics share an opcode. -/
abbrev OpcodeMap.Injective (m : OpcodeMap) : Prop :=
  (Mnemonic.all.map m.code).Nodup

/-- The part an operand plays in an instruction (`30_encoding.md` R64); the names are the spec's. -/
inductive Role where
  | rd | rs1 | rs2 | rs | imm
  deriving DecidableEq, Repr

/-- What a field holds (`30_encoding.md` R63): a register or an N-bit immediate. -/
inductive FieldKind where
  | register
  | immediate (n : Nat)
  deriving DecidableEq, Repr

/-- One field of a layout: which operand it holds, and of what kind. -/
structure Field where
  role : Role
  kind : FieldKind
  deriving DecidableEq, Repr

/-- The per-opcode field layouts (R26): the fields of each mnemonic in declaration order, from bit 8 upward. -/
structure LayoutTable where
  add : List Field
  sub : List Field
  mul : List Field
  and : List Field
  or : List Field
  xor : List Field
  shl : List Field
  shr : List Field
  shrA : List Field
  addI : List Field
  lui : List Field
  lw : List Field
  sw : List Field
  syscall : List Field
  li : List Field
  deriving DecidableEq, Repr

/-- The layout registered for a mnemonic. -/
def LayoutTable.layout (t : LayoutTable) : Mnemonic → List Field
  | .add => t.add
  | .sub => t.sub
  | .mul => t.mul
  | .and => t.and
  | .or => t.or
  | .xor => t.xor
  | .shl => t.shl
  | .shr => t.shr
  | .shrA => t.shrA
  | .addI => t.addI
  | .lui => t.lui
  | .lw => t.lw
  | .sw => t.sw
  | .syscall => t.syscall
  | .li => t.li

/-- What decode and encode are configured by: the opcode map and the layouts (R26). -/
structure Codec where
  /-- `OPC`. -/
  opc : OpcodeMap
  /-- The per-opcode field layouts. -/
  layouts : LayoutTable
  deriving DecidableEq, Repr

/-- The parameters of R6 and R26. `shamtTable` lists where `SHAMT` differs from its default, `loadLenTable` where `LOAD_LEN_ERR` does:
both parameters are functions, and a configuration is plain data (logs 4 and 5). -/
structure Config where
  /-- `MEM_SIZE`, the document's `allocated_memory`. -/
  memSize : Nat
  /-- `STACK_SIZE`, the document's `stack_size`. -/
  stackSize : Nat
  /-- `OPC` and the field layouts. -/
  codec : Codec
  /-- `SHAMT`, as its exceptions from `v mod 32`. -/
  shamtTable : List (Word × Fin 32)
  /-- `LOAD_LEN_ERR`, as its exceptions from `UnalignedAccess(len, 4)`. -/
  loadLenTable : List (Nat × MemoryError)
  deriving DecidableEq, Repr

end Sys2Proof
end

