-- ==== Sys2Proof/Machine/Parameters.lean ====
section
/-! DEFINITION. The defaults and the legal values of the parameters of `00_scope.md` R6 and `10_state.md` R26, the functions `SHAMT` and `LOAD_LEN_ERR` a configuration stands
for, and the addresses a configuration fixes (`20_memory.md` R36). -/

namespace Sys2Proof

/-- The default opcode map of `30_encoding.md` R76 (D1): 0x01 to 0x0F in listing order. -/
def defaultOpcodes : OpcodeMap :=
  { add := 0x01, sub := 0x02, mul := 0x03, and := 0x04, or := 0x05, xor := 0x06, shl := 0x07, shr := 0x08, shrA := 0x09,
    addI := 0x0A, lui := 0x0B, lw := 0x0C, sw := 0x0D, syscall := 0x0E, li := 0x0F }

/-- A register field (R63). -/
def Field.reg (r : Role) : Field := { role := r, kind := .register }

/-- An N-bit immediate field (R63). -/
def Field.immediate (n : Nat) : Field := { role := .imm, kind := .immediate n }

/-- Format R: destination, first source, second source (R62, R64). -/
def layoutR : List Field := [.reg .rd, .reg .rs1, .reg .rs2]

/-- Format I: destination or base, source or base, 14-bit immediate (R62, R64). -/
def layoutI : List Field := [.reg .rd, .reg .rs, .immediate 14]

/-- Format U: destination, 19-bit immediate (R62, R64). -/
def layoutU : List Field := [.reg .rd, .immediate 19]

/-- The layouts of `30_encoding.md` R64 (D3). -/
def defaultLayouts : LayoutTable :=
  { add := layoutR, sub := layoutR, mul := layoutR, and := layoutR, or := layoutR, xor := layoutR, shl := layoutR, shr := layoutR,
    shrA := layoutR, addI := layoutI, lui := layoutU, lw := layoutI, sw := layoutI, syscall := [], li := layoutU }

/-- The opcode map and the layouts the spec gives as defaults. -/
def defaultCodec : Codec := { opc := defaultOpcodes, layouts := defaultLayouts }

/-- The legal layouts (log 15): "the kinds and widths of the operands of each instruction" are fixed, their order is not (R64, D3). -/
abbrev LayoutTable.Valid (t : LayoutTable) : Prop :=
  ∀ k ∈ Mnemonic.all, (t.layout k).Perm (defaultLayouts.layout k)

/-- A legal opcode map (R76) and legal layouts. -/
abbrev Codec.Valid (c : Codec) : Prop := c.opc.Injective ∧ c.layouts.Valid

/-- The ranges of R6 (D15) and R26. A configuration outside them "builds no machine at all" (`70_reset_and_hazards.md` R182). -/
abbrev Config.Valid (c : Config) : Prop :=
  1 ≤ c.memSize ∧ c.memSize < 2 ^ 32 ∧ c.stackSize ≤ c.memSize ∧ c.codec.Valid

/-- DESIGN CHOICE (log 2): the machine `State.reset` is built from is the one every vector of `95_test_vectors.md` uses,
`MEM_SIZE` = 0x8000, `STACK_SIZE` = 0x1000, all other parameters at their defaults. -/
def standardConfig : Config :=
  { memSize := 0x8000, stackSize := 0x1000, codec := defaultCodec, shamtTable := [], loadLenTable := [] }

/-- `SHAMT(v)` of `42_shift.md` R114: `v mod 32` but where the configuration says otherwise. -/
def Config.shamt (c : Config) (v : Word) : Fin 32 :=
  (c.shamtTable.lookup v).getD ⟨v.toNat % 32, Nat.mod_lt _ (by decide)⟩

/-- `LOAD_LEN_ERR(len)` of `70_reset_and_hazards.md` R192: `UnalignedAccess(len, 4)` but where the configuration says otherwise. -/
def Config.loadLenErr (c : Config) (len : Nat) : MemoryError :=
  (c.loadLenTable.lookup len).getD (.unalignedAccess (BitVec.ofNat 32 len) 4)

/-- `Stack.start` = `MEM_SIZE - STACK_SIZE` (R36). -/
def Config.stackLow (c : Config) : Word :=
  BitVec.ofNat 32 (c.memSize - c.stackSize)

/-- `stack_start()` = `MEM_SIZE - 1`, the top-of-stack address, which is also `Stack.end` (R36). -/
def Config.stackTop (c : Config) : Word :=
  BitVec.ofNat 32 (c.memSize - 1)

end Sys2Proof
end

