-- ==== Sys2Proof/Syntax.lean ====
section
/-! DEFINITION. The fifteen instructions (`00_scope.md` R1, `30_encoding.md` R64), one constructor per row of
`spec/opcode_table.json`, with decoded operands: register ordinals and signed immediates (`30_encoding.md` R72). -/

namespace Sys2Proof

/-- A register ordinal, 0 to 16 (`10_state.md` R10). -/
abbrev Reg := Fin 17

/-! The register names of `10_state.md` R11 (D6): labels only, no instruction treats a name specially. -/

abbrev regZero : Reg := 0
abbrev regRA : Reg := 1
abbrev regSP : Reg := 2
abbrev regGP : Reg := 3
abbrev regTP : Reg := 4
abbrev regT0 : Reg := 5
abbrev regT1 : Reg := 6
abbrev regT2 : Reg := 7
abbrev regT3 : Reg := 8
abbrev regS0 : Reg := 9
abbrev regS1 : Reg := 10
abbrev regS2 : Reg := 11
abbrev regS3 : Reg := 12
abbrev regA0 : Reg := 13
abbrev regA1 : Reg := 14
abbrev regA2 : Reg := 15
abbrev regA3 : Reg := 16

/-- An instruction: its mnemonic and its operands in layout order (R64). -/
inductive Instr where
  | add (rd rs1 rs2 : Reg)
  | sub (rd rs1 rs2 : Reg)
  | mul (rd rs1 rs2 : Reg)
  | and (rd rs1 rs2 : Reg)
  | or (rd rs1 rs2 : Reg)
  | xor (rd rs1 rs2 : Reg)
  | shl (rd rs1 rs2 : Reg)
  | shr (rd rs1 rs2 : Reg)
  | shrA (rd rs1 rs2 : Reg)
  | addI (rd rs : Reg) (imm : Int)
  | lui (rd : Reg) (imm : Int)
  /-- `rd` is the destination (the document's `dest`), `rs` the base (`src`). -/
  | lw (rd rs : Reg) (imm : Int)
  /-- `rd` is the BASE (the document's `dest`), `rs` the register stored (`src`). -/
  | sw (rd rs : Reg) (imm : Int)
  | syscall
  | li (rd : Reg) (imm : Int)
  deriving DecidableEq, Repr

end Sys2Proof
end

