-- ==== Sys2Proof/WellFormed.lean ====
section
/-! DEFINITION. Which instructions are values of the document's `Instruction` type: every immediate passed the bounds check of
its width (`30_encoding.md` R69, R80, R73). Register ordinals are in range by their type. -/

namespace Sys2Proof

/-- `min` of an N-bit immediate (R69). -/
def immMin (n : Nat) : Int := -(2 ^ (n - 1))

/-- `max` of an N-bit immediate (R69). -/
def immMax (n : Nat) : Int := 2 ^ (n - 1) - 1

/-- The range of `Immediate<N>` (R69). -/
abbrev ImmFits (n : Nat) (v : Int) : Prop :=
  immMin n ≤ v ∧ v ≤ immMax n

/-- The immediate an instruction holds, with its width N (R64): 14 in format I, 19 in format U. -/
def Instr.immediate : Instr → Option (Nat × Int)
  | .addI _ _ imm => some (14, imm)
  | .lw _ _ imm => some (14, imm)
  | .sw _ _ imm => some (14, imm)
  | .lui _ imm => some (19, imm)
  | .li _ imm => some (19, imm)
  | .add _ _ _ => none
  | .sub _ _ _ => none
  | .mul _ _ _ => none
  | .and _ _ _ => none
  | .or _ _ _ => none
  | .xor _ _ _ => none
  | .shl _ _ _ => none
  | .shr _ _ _ => none
  | .shrA _ _ _ => none
  | .syscall => none

/-- "The operands of an instruction value are always legal" (R73): its immediate, if any, is in range. -/
def wellFormed (i : Instr) : Bool :=
  match i.immediate with
  | none => true
  | some (n, v) => decide (ImmFits n v)

/-- `wellFormed` as a proposition. -/
abbrev WellFormed (i : Instr) : Prop := wellFormed i = true

end Sys2Proof
end

