-- ==== Sys2Proof/Decode.lean ====
section
/-! DEFINITION. The decoder and the encoder of `30_encoding.md`: the register clamp (R68), the immediates (R69 to R71, R80), the packing
rule (R63), decode (R72, R74) and encode (R73), for any opcode map (R76) and any table of layouts (R26, R64). -/

namespace Sys2Proof

/-! ## Fields -/

/-- Word bits 7:0, the opcode (R61). -/
def opcodeField (w : Word) : Byte := w.extractLsb' 0 8

/-- The clamp (R68): 1 to 16 map directly, every other field value is register Zero. -/
def regdec (b : BitVec 5) : Reg :=
  if h : 1 ≤ b.toNat ∧ b.toNat ≤ 16 then ⟨b.toNat, Nat.lt_succ_of_le h.2⟩ else 0

/-- A register is encoded as its ordinal (R66). -/
def regenc (r : Reg) : BitVec 5 := BitVec.ofNat 5 r.val

/-- The sign reconstruction of an N-bit field (R71). -/
def fromBits (n : Nat) (b : BitVec n) : Int :=
  if b.getLsbD (n - 1) then (b.toNat : Int) - 2 ^ n else b.toNat

/-- Packing an immediate: `v mod 2^N` (R70). -/
def toBits (n : Nat) (v : Int) : BitVec n := BitVec.ofInt n v

/-- `Immediate::<N>::new(value)`, the bounds check (R80): the value, or `ImmediateOutOfRange(value, N)`. -/
def newImmediate (n : Nat) (v : Int) : Except EncodeError Int :=
  if ImmFits n v then .ok v else .error (.immediateOutOfRange v n)

/-! ## The packing rule -/

/-- The width of a field (R63). -/
def FieldKind.width : FieldKind → Nat
  | .register => 5
  | .immediate n => n

/-- A decoded operand. -/
inductive Operand where
  | reg (r : Reg)
  | imm (v : Int)
  deriving DecidableEq, Repr

/-- "Interpret as Register ... or Immediate" (R72): the operand a field value stands for. -/
def FieldKind.read : FieldKind → Nat → Operand
  | .register, b => .reg (regdec (BitVec.ofNat 5 b))
  | .immediate n, b => .imm (fromBits n (BitVec.ofNat n b))

/-- The value of an operand in a field of width `n` (R66, R70). -/
def Operand.bits : Operand → Nat → Nat
  | .reg r, n => (regenc r).toNat % 2 ^ n
  | .imm v, n => (toBits n v).toNat

/-- "(word >> o) & ((1 << w) − 1)" (R63). -/
def extract (w : Word) (o n : Nat) : Nat := w.toNat / 2 ^ o % 2 ^ n

/-- Unpacking the fields of a layout from bit `o` upward, "each accumulating the previous widths" (R63, R72). -/
def unpackFields (w : Word) : Nat → List Field → List (Role × Operand)
  | _, [] => []
  | o, f :: fs => (f.role, f.kind.read (extract w o f.kind.width)) :: unpackFields w (o + f.kind.width) fs

/-- The bits of the operand a field holds. -/
def Field.bits (f : Field) (ops : List (Role × Operand)) : Nat :=
  match ops.lookup f.role with
  | some x => x.bits f.kind.width
  | none => 0

/-- Packing the fields of a layout from bit `o` upward: "OR in each field shifted to its offset" (R73). -/
def packFields (ops : List (Role × Operand)) : Nat → List Field → Nat
  | _, [] => 0
  | o, f :: fs => f.bits ops * 2 ^ o ||| packFields ops (o + f.kind.width) fs

/-- The register an operand list gives a role; Zero where it gives none, which no legal layout does (log 14). -/
def regOperand (ops : List (Role × Operand)) (r : Role) : Reg :=
  match ops.lookup r with
  | some (.reg x) => x
  | _ => 0

/-- The immediate an operand list holds; 0 where it holds none, which no legal layout does (log 14). -/
def immOperand (ops : List (Role × Operand)) : Int :=
  match ops.lookup .imm with
  | some (.imm v) => v
  | _ => 0

/-- The instruction of a mnemonic and its operands. -/
def Instr.ofOperands (ops : List (Role × Operand)) : Mnemonic → Instr
  | .add => .add (regOperand ops .rd) (regOperand ops .rs1) (regOperand ops .rs2)
  | .sub => .sub (regOperand ops .rd) (regOperand ops .rs1) (regOperand ops .rs2)
  | .mul => .mul (regOperand ops .rd) (regOperand ops .rs1) (regOperand ops .rs2)
  | .and => .and (regOperand ops .rd) (regOperand ops .rs1) (regOperand ops .rs2)
  | .or => .or (regOperand ops .rd) (regOperand ops .rs1) (regOperand ops .rs2)
  | .xor => .xor (regOperand ops .rd) (regOperand ops .rs1) (regOperand ops .rs2)
  | .shl => .shl (regOperand ops .rd) (regOperand ops .rs1) (regOperand ops .rs2)
  | .shr => .shr (regOperand ops .rd) (regOperand ops .rs1) (regOperand ops .rs2)
  | .shrA => .shrA (regOperand ops .rd) (regOperand ops .rs1) (regOperand ops .rs2)
  | .addI => .addI (regOperand ops .rd) (regOperand ops .rs) (immOperand ops)
  | .lui => .lui (regOperand ops .rd) (immOperand ops)
  | .lw => .lw (regOperand ops .rd) (regOperand ops .rs) (immOperand ops)
  | .sw => .sw (regOperand ops .rd) (regOperand ops .rs) (immOperand ops)
  | .syscall => .syscall
  | .li => .li (regOperand ops .rd) (immOperand ops)

/-- The operands of an instruction by role (R64). -/
def Instr.operands : Instr → List (Role × Operand)
  | .add a b c | .sub a b c | .mul a b c | .and a b c | .or a b c | .xor a b c | .shl a b c | .shr a b c | .shrA a b c =>
    [(.rd, .reg a), (.rs1, .reg b), (.rs2, .reg c)]
  | .addI a b v | .lw a b v | .sw a b v => [(.rd, .reg a), (.rs, .reg b), (.imm, .imm v)]
  | .lui a v | .li a v => [(.rd, .reg a), (.imm, .imm v)]
  | .syscall => []

/-! ## Decode -/

/-- The mnemonic whose opcode is `op`. With an injective map there is at most one; otherwise the first in listing order (log 14). -/
def OpcodeMap.lookup (m : OpcodeMap) (op : Byte) : Option Mnemonic :=
  Mnemonic.all.find? (fun k => m.code k == op)

/-- The instruction of a word whose mnemonic is known, by the layout registered for it (R64, R72). -/
def decodeAs (c : Codec) (k : Mnemonic) (w : Word) : Instr :=
  .ofOperands (unpackFields w 8 (c.layouts.layout k)) k

/-- `decode(w)` of R72: an instruction, or `UnknownOpcode(w[7:0])` (R74). -/
def decode (c : Codec) (w : Word) : Except DecodeError Instr :=
  match c.opc.lookup (opcodeField w) with
  | some k => .ok (decodeAs c k w)
  | none => .error (.unknownOpcode (opcodeField w))

/-! ## Words and bytes -/

/-- The number the bytes stand for, least significant byte first (`20_memory.md` R32). -/
def leToNat : List Byte → Nat
  | [] => 0
  | b :: bs => b.toNat + 256 * leToNat bs

/-- The `n` bytes of a value, least significant byte first (`20_memory.md` R32). -/
def leBytes : Nat → Nat → List Byte
  | 0, _ => []
  | n + 1, v => BitVec.ofNat 8 v :: leBytes n (v / 256)

/-- Why a string of bytes gives no instruction. -/
inductive DecodeRefusal where
  /-- The first four bytes are a word that `decode` refuses (R74). -/
  | notAnInstruction (e : DecodeError)
  /-- Fewer than four bytes: no instruction word (R60). -/
  | truncated
  deriving DecidableEq, Repr

/-- The decoder on any bytes: the instruction of the first word and the bytes after it (R60). -/
def decodeBytes (c : Codec) : List Byte → Except DecodeRefusal (Instr × List Byte)
  | b0 :: b1 :: b2 :: b3 :: rest =>
    match decode c (BitVec.ofNat 32 (leToNat [b0, b1, b2, b3])) with
    | .ok i => .ok (i, rest)
    | .error e => .error (.notAnInstruction e)
  | _ => .error .truncated

/-- The instruction the decoder reads, under the default opcode map and layouts, from the word whose bits are `w` (bit 0 the least
significant bit of the first byte), its bits from `nbits` up being 0. -/
def decodeTableWord (nbits w : Nat) : Option Instr :=
  match decodeBytes defaultCodec (leBytes 4 (w % 2 ^ nbits)) with
  | .ok (i, _) => some i
  | .error _ => none

/-! ## Encode -/

/-- The mnemonic of an instruction. -/
def Instr.mnemonic : Instr → Mnemonic
  | .add _ _ _ => .add
  | .sub _ _ _ => .sub
  | .mul _ _ _ => .mul
  | .and _ _ _ => .and
  | .or _ _ _ => .or
  | .xor _ _ _ => .xor
  | .shl _ _ _ => .shl
  | .shr _ _ _ => .shr
  | .shrA _ _ _ => .shrA
  | .addI _ _ _ => .addI
  | .lui _ _ => .lui
  | .lw _ _ _ => .lw
  | .sw _ _ _ => .sw
  | .syscall => .syscall
  | .li _ _ => .li

/-- `encode` of R73: "start from opcode, OR in each field". Bits no field covers are 0 (R65). -/
def encode (c : Codec) (i : Instr) : Word :=
  BitVec.ofNat 32 ((c.opc.code i.mnemonic).toNat ||| packFields i.operands 8 (c.layouts.layout i.mnemonic))

/-- The bytes of an encoded instruction as they stand in memory (R60). -/
def encodeBytes (c : Codec) (i : Instr) : List Byte := leBytes 4 (encode c i).toNat

/-- The encoder with the bounds check of R80 in front: an out-of-range immediate is `ImmediateOutOfRange` (R158). -/
def assemble (c : Codec) (i : Instr) : Except EncodeError Word :=
  match i.immediate with
  | none => .ok (encode c i)
  | some (n, v) =>
    match newImmediate n v with
    | .ok _ => .ok (encode c i)
    | .error e => .error e

end Sys2Proof
end

