-- ==== Sys2Proof/Machine/State.lean ====
section
/-! DEFINITION. Everything the spec gives the machine to hold (`10_state.md`), its value after reset (R24), and the ways a step
stops (`60_exceptions.md` R150, R152; `40_fetch_decode_execute.md` R99). -/

namespace Sys2Proof.Machine

/-- The linear memory (R20) as the bytes that are not 0, by rising address. An unlisted address reads 0, the value of every
byte after reset (R24). -/
abbrev Memory := List Host.Cell

/-- The canonical form: addresses strictly rising, no byte listed that an unlisted address would read as. -/
abbrev Memory.wf (m : Memory) : Prop :=
  (m.map Prod.fst).Pairwise (· < ·) ∧ ∀ c ∈ m, c.2 ≠ 0

/-- A subset of the three permissions (R21). -/
structure Permissions where
  read : Bool
  write : Bool
  execute : Bool
  deriving DecidableEq, Repr

/-- A region descriptor (R21): inclusive bounds and permissions. `last` is the spec's `end`. -/
structure Region where
  start : Word
  last : Word
  perms : Permissions
  deriving DecidableEq, Repr

/-- The four kinds of region (R21). -/
inductive RegionKind where
  | code | data | heap | stack
  deriving DecidableEq, Repr

/-- The four descriptors, one per kind (R21). -/
structure Regions where
  code : Region
  data : Region
  heap : Region
  stack : Region
  deriving DecidableEq, Repr

/-- The permissions {Read} (R22). -/
def Permissions.readOnly : Permissions := { read := true, write := false, execute := false }

/-- The permissions {Read, Write} (R22). -/
def Permissions.readWrite : Permissions := { read := true, write := true, execute := false }

/-- The region bounds and permissions after reset (R24): Code, Data and Heap at (0, 0), the Stack at the top of the memory. -/
def Regions.reset (c : Config) : Regions :=
  { code := { start := 0, last := 0, perms := .readOnly }
    data := { start := 0, last := 0, perms := .readOnly }
    heap := { start := 0, last := 0, perms := .readWrite }
    stack := { start := c.stackLow, last := c.stackTop, perms := .readWrite } }

/-- The whole state of the core (R10, R15, R17 to R21), with the configuration it was built from (R26, log 1). -/
structure State where
  /-- The seventeen general registers, by ordinal (R10). -/
  regs : Vector Word 17
  /-- The address of the next instruction word to fetch (R15). -/
  pc : Word
  /-- The halt flag (R17). -/
  halt : Bool
  /-- The unused flags word (R18); its width is the model's (log 6). -/
  flags : Word
  /-- The linear memory (R20). -/
  mem : Memory
  /-- The control registers of the memory checker (R21). -/
  regions : Regions
  /-- A program load failed part-way (R19): only reset has a meaning. -/
  poisoned : Bool
  /-- A program load succeeded since reset (R19). -/
  loaded : Bool
  /-- `MEM_SIZE`, `STACK_SIZE`, `OPC`, `SHAMT`, `LOAD_LEN_ERR`: never changed. -/
  config : Config
  deriving DecidableEq, Repr

/-- The state R24 lists, for a machine of this configuration: the state after reset and after construction. -/
def State.resetWith (c : Config) : State :=
  { regs := Vector.replicate 17 0
    pc := 0
    halt := false
    flags := 0
    mem := []
    regions := .reset c
    poisoned := false
    loaded := false
    config := c }

/-- The machine right after reset. The spec gives `MEM_SIZE` and `STACK_SIZE` no default: `standardConfig`, DESIGN CHOICE (log 2). -/
def State.reset : State := State.resetWith standardConfig

/-- How a step stops at an error. -/
inductive Fault where
  /-- The step raised `e` and left the machine in the state `left` that R152 describes: what was done before the raise stays
  done, nothing else. Raised by fetch and by `Lw` and `Sw` (a `MemoryError`) and by decode (`UnknownOpcode`), always through
  `raise`. Safe: the spec itself has a model treat this as a fault that ends the run (R163, U20). -/
  | raised (e : Error) (left : State)
  deriving DecidableEq, Repr

/-- Why an operation has no meaning here. -/
inductive Refusal where
  /-- An instruction whose meaning is not written. Safe. No arm of `exec` uses it. -/
  | notModelled (mnemonic : String)
  /-- Any host operation but reset, a step among them, while `poisoned` is set: the spec gives it no meaning (R99, R193). Safe. -/
  | machinePoisoned
  /-- A second program load without a reset: the spec gives it no meaning (R194). Safe. -/
  | alreadyLoaded
  /-- A program of 2^32 bytes or more: the spec assumes there is none (R190, log 10). Safe. -/
  | programTooLong
  /-- A run that has taken more steps than R96 lets any machine take. Raised by `run` alone, and only on a configuration
  that builds no machine (R182, log 12). Safe. -/
  | runUnbounded
  deriving DecidableEq, Repr

end Sys2Proof.Machine
end

