-- ==== Sys2Proof/Machine/Ops.lean ====
section
/-! DEFINITION. The named operations on registers, memory and the memory checker (`10_state.md` R12, R13; `20_memory.md`), the raising
of an error (`60_exceptions.md` R152), and the phases Fetch and Advance of a step (`40_fetch_decode_execute.md` R91). -/

namespace Sys2Proof.Machine

/-! ## Registers -/

/-- `x[r]` (R12): no side effect. -/
def State.readReg (s : State) (r : Reg) : Word := s.regs.get r

/-- `x[r] <- v` (R13). Register 0 is an ordinary register. -/
def State.writeReg (s : State) (r : Reg) (v : Word) : State :=
  { s with regs := s.regs.set r.val v r.isLt }

/-! ## The linear memory, with no check -/

/-- `mem[a]`: an unlisted byte is 0 (R20, R24). -/
def Memory.get : Memory → Nat → Byte
  | [], _ => 0
  | (k, v) :: rest, a => if a = k then v else Memory.get rest a

/-- Lists the byte `b`, not 0, at `a`. -/
def Memory.insert : Memory → Nat → Byte → Memory
  | [], a, b => [(a, b)]
  | (k, v) :: rest, a, b =>
    if a < k then (a, b) :: (k, v) :: rest
    else if a = k then (a, b) :: rest
    else (k, v) :: Memory.insert rest a b

/-- `mem[a] <- b`, in canonical form: writing 0 removes the entry. -/
def Memory.put (m : Memory) (a : Nat) (b : Byte) : Memory :=
  if b = 0 then m.filter (fun c => decide (c.1 ≠ a)) else Memory.insert m a b

/-- `mem[a] + 2^8·mem[a+1] + …`, the little-endian value of `n` bytes (R32). -/
def Memory.readLE (m : Memory) (a : Nat) : Nat → Nat
  | 0 => 0
  | n + 1 => (m.get a).toNat + 256 * Memory.readLE m (a + 1) n

/-- `mem[a + i] <- (v >> 8i) mod 256` for i = 0 .. n − 1 (R32, R41). -/
def Memory.writeLE (m : Memory) (a : Nat) : Nat → Nat → Memory
  | 0, _ => m
  | n + 1, v => Memory.writeLE (m.put a (BitVec.ofNat 8 v)) (a + 1) n (v / 256)

/-- The byte of the linear memory at an address, with no check (`mem[a]` of `00_scope.md`). -/
def State.byteAt (s : State) (a : Nat) : Byte := s.mem.get a

/-! ## Regions -/

/-- The order in which the regions are scanned (R34). -/
def RegionKind.scanOrder : List RegionKind := [.code, .data, .heap, .stack]

/-- The descriptor of a kind. -/
def Regions.region (rs : Regions) : RegionKind → Region
  | .code => rs.code
  | .data => rs.data
  | .heap => rs.heap
  | .stack => rs.stack

/-- Containment (R33): both bounds are inclusive. -/
def Region.owns (r : Region) (a : Word) : Bool :=
  decide (r.start.toNat ≤ a.toNat ∧ a.toNat ≤ r.last.toNat)

/-- Resolution (R34): "first match wins". -/
def Regions.owner (rs : Regions) (a : Word) : Option RegionKind :=
  RegionKind.scanOrder.find? (fun k => (rs.region k).owns a)

/-- Whether a permission set holds a permission (R21). -/
def Permissions.allows (p : Permissions) : Permission → Bool
  | .read => p.read
  | .write => p.write
  | .execute => p.execute

/-! ## The memory checker -/

/-- The access sizes (R42, D23). -/
inductive Width where
  | byte | half | word
  deriving DecidableEq, Repr

/-- The number of bytes of an access: 1, 2 or 4 (R42). -/
def Width.bytes : Width → Nat
  | .byte => 1
  | .half => 2
  | .word => 4

/-- The checks every access passes, in order (R38, R34, R39): capacity, region, permission. -/
def checkAccess (s : State) (need : Permission) (addr : Word) (n : Nat) : Except MemoryError Unit :=
  if s.config.memSize < addr.toNat + n then .error .outOfBounds
  else
    match s.regions.owner addr with
    | none => .error .invalidAddress
    | some k => if (s.regions.region k).perms.allows need then .ok () else .error (.permissionDenied need addr)

/-- `MemRead(addr, n)` (R40). The value is zero-extended to a word. -/
def memRead (s : State) (addr : Word) (w : Width) : Except MemoryError Word :=
  match checkAccess s .read addr w.bytes with
  | .ok _ => .ok (BitVec.ofNat 32 (s.mem.readLE addr.toNat w.bytes))
  | .error e => .error e

/-- `MemWrite(addr, n, v)` (R41): the low `n` bytes of `v`. A write that fails a check changes nothing. -/
def memWrite (s : State) (addr : Word) (w : Width) (v : Word) : Except MemoryError State :=
  match checkAccess s .write addr w.bytes with
  | .ok _ => .ok { s with mem := s.mem.writeLE addr.toNat w.bytes v.toNat }
  | .error e => .error e

/-- `AlignCheck(n, addr)` (R44). -/
def alignCheck (w : Width) (addr : Word) : Except MemoryError Unit :=
  if addr.toNat % w.bytes = 0 then .ok () else .error (.unalignedAccess addr w.bytes)

/-- The read of `Lw`: the alignment check, then the checked read (R133). -/
def loadWord (s : State) (addr : Word) : Except MemoryError Word :=
  match alignCheck .word addr with
  | .ok _ => memRead s addr .word
  | .error e => .error e

/-- The write of `Sw`: the alignment check, then the checked write (R133). -/
def storeWord (s : State) (addr : Word) (v : Word) : Except MemoryError State :=
  match alignCheck .word addr with
  | .ok _ => memWrite s addr .word v
  | .error e => .error e

/-! ## Taking an error -/

/-- `raise E` in the state reached so far (R152): the step stops, that state is what is left, and nothing else changes: no cause is
stored, `halt` is not set, no handler runs (R161). There is no return from it (R163). -/
def raise (e : Error) (s : State) : Host.Outcome State Fault Refusal := .fault (.raised e s)

/-! ## The phases of a step -/

/-- Fetch: `MemRead(pc, 4)` (R91). It needs Read, not Execute (R53), and makes no alignment check (R45). -/
def fetch (s : State) : Except MemoryError Word := memRead s s.pc .word

/-- Advance: `pc <- pc + 4` (R91, R16). -/
def State.advance (s : State) : State := { s with pc := s.pc + 4 }

end Sys2Proof.Machine
end

