-- ==== Sys2Proof/Machine/Operands.lean ====
section
/-! DEFINITION. The operand forms: the immediate as a 32-bit value (`43_immediate.md` R123), base plus offset (`44_load_store.md` R130),
the shift amount (`42_shift.md` R114), and the signed reading of a register (`00_scope.md` section 6). -/

namespace Sys2Proof.Machine

/-- An immediate as its 32-bit two's-complement pattern, `imm mod 2^32` (R123). -/
def immWord (imm : Int) : Word := BitVec.ofInt 32 imm

/-- The effective address, `(x[base] + imm) mod 2^32` (R130). -/
def effectiveAddress (s : State) (base : Reg) (imm : Int) : Word := s.readReg base + immWord imm

/-- The effective shift amount, `SHAMT(v)` of the machine's configuration (R114). -/
def shiftAmount (s : State) (v : Word) : Nat := (s.config.shamt v).val

/-- `signed(v)` (`00_scope.md` section 6). -/
def signed (v : Word) : Int := if v.toNat < 2 ^ 31 then v.toNat else (v.toNat : Int) - 2 ^ 32

end Sys2Proof.Machine
end

