-- ==== Sys2Proof/Machine/Flags.lean ====
section
/-! DEFINITION. The flags: "flags (currently unused)" (`10_state.md` R18). The one rule about them is that no instruction writes them;
the overflow indication an arithmetic instruction computes is dropped (`41_arith_logic.md` R100). -/

namespace Sys2Proof.Machine

/-- The flags word after an instruction: what it was (R18, R100, R110). -/
def flagsAfter (before : Word) : Word := before

/-- How every instruction with a destination ends: the result in `rd`, the flags by `flagsAfter`, nothing else (R93). -/
def State.result (s : State) (rd : Reg) (v : Word) : State :=
  { s.writeReg rd v with flags := flagsAfter s.flags }

/-- The shape of Add to ShrA: both sources are read, then the destination is written (R13, R100, R110). -/
def binary (f : Word → Word → Word) (rd rs1 rs2 : Reg) (s : State) : Host.Outcome State Fault Refusal :=
  .next (s.result rd (f (s.readReg rs1) (s.readReg rs2)))

end Sys2Proof.Machine
end

