-- ==== Sys2Proof/Machine/Arith.lean ====
section
/-! DEFINITION. Add, Sub, Mul, And, Or, Xor (`41_arith_logic.md` R100 to R107): arithmetic modulo 2^32, no trap, no saturation. -/

namespace Sys2Proof.Machine

/-- R101: `x[rd] <- (x[rs1] + x[rs2]) mod 2^32`. -/
def execAdd (rd rs1 rs2 : Reg) (s : State) : Host.Outcome State Fault Refusal :=
  binary (fun a b => a + b) rd rs1 rs2 s

/-- R102: `x[rd] <- (x[rs1] − x[rs2]) mod 2^32`; the first source is the minuend (D8). -/
def execSub (rd rs1 rs2 : Reg) (s : State) : Host.Outcome State Fault Refusal :=
  binary (fun a b => a - b) rd rs1 rs2 s

/-- R103: the low 32 bits of the product. -/
def execMul (rd rs1 rs2 : Reg) (s : State) : Host.Outcome State Fault Refusal :=
  binary (fun a b => a * b) rd rs1 rs2 s

/-- R104: bitwise and. -/
def execAnd (rd rs1 rs2 : Reg) (s : State) : Host.Outcome State Fault Refusal :=
  binary (fun a b => a &&& b) rd rs1 rs2 s

/-- R105: bitwise or. -/
def execOr (rd rs1 rs2 : Reg) (s : State) : Host.Outcome State Fault Refusal :=
  binary (fun a b => a ||| b) rd rs1 rs2 s

/-- R106: bitwise exclusive or. -/
def execXor (rd rs1 rs2 : Reg) (s : State) : Host.Outcome State Fault Refusal :=
  binary (fun a b => a ^^^ b) rd rs1 rs2 s

end Sys2Proof.Machine
end

