-- ==== Sys2Proof/Machine/Immediate.lean ====
section
/-! DEFINITION. AddI, Lui, Li (`43_immediate.md` R120 to R123). -/

namespace Sys2Proof.Machine

/-- R120: `x[rd] <- (x[rs] + imm) mod 2^32`. -/
def execAddI (rd rs : Reg) (imm : Int) (s : State) : Host.Outcome State Fault Refusal :=
  .next (s.result rd (s.readReg rs + immWord imm))

/-- What Lui and Li do (R121, R122): the sign-extended immediate, not shifted. -/
def loadImmediate (rd : Reg) (imm : Int) (s : State) : Host.Outcome State Fault Refusal :=
  .next (s.result rd (immWord imm))

/-- R121. The immediate is not shifted, whatever the name suggests (C7, D9). -/
def execLui (rd : Reg) (imm : Int) (s : State) : Host.Outcome State Fault Refusal :=
  loadImmediate rd imm s

/-- R122. -/
def execLi (rd : Reg) (imm : Int) (s : State) : Host.Outcome State Fault Refusal :=
  loadImmediate rd imm s

end Sys2Proof.Machine
end

