-- ==== Sys2Proof/Machine/LoadStore.lean ====
section
/-! DEFINITION. Lw and Sw (`44_load_store.md` R130 to R133). -/

namespace Sys2Proof.Machine

/-- R131: the loaded word is written to `rd` only when every check of R133 passed. -/
def execLw (rd rs : Reg) (imm : Int) (s : State) : Host.Outcome State Fault Refusal :=
  match loadWord s (effectiveAddress s rs imm) with
  | .ok v => .next (s.result rd v)
  | .error e => raise (.memory e) s

/-- R132: `rd` is the base, `rs` the register stored; no register is written. -/
def execSw (rd rs : Reg) (imm : Int) (s : State) : Host.Outcome State Fault Refusal :=
  match storeWord s (effectiveAddress s rd imm) (s.readReg rs) with
  | .ok t => .next { t with flags := flagsAfter s.flags }
  | .error e => raise (.memory e) s

end Sys2Proof.Machine
end

