-- ==== Sys2Proof/Machine/Shift.lean ====
section
/-! DEFINITION. Shl, Shr, ShrA (`42_shift.md` R110 to R114): the first source shifted by `SHAMT` of the second. -/

namespace Sys2Proof.Machine

/-- R111: zeros enter at bit 0. -/
def execShl (rd rs1 rs2 : Reg) (s : State) : Host.Outcome State Fault Refusal :=
  binary (fun a b => a <<< shiftAmount s b) rd rs1 rs2 s

/-- R112: zeros enter at bit 31. -/
def execShr (rd rs1 rs2 : Reg) (s : State) : Host.Outcome State Fault Refusal :=
  binary (fun a b => a >>> shiftAmount s b) rd rs1 rs2 s

/-- R113: copies of bit 31 enter at bit 31. -/
def execShrA (rd rs1 rs2 : Reg) (s : State) : Host.Outcome State Fault Refusal :=
  binary (fun a b => a.sshiftRight (shiftAmount s b)) rd rs1 rs2 s

end Sys2Proof.Machine
end

