-- ==== Sys2Proof/Machine/System.lean ====
section
/-! DEFINITION. Syscall (`45_system.md` R140): its one effect is to set `halt`. It is no trap: nothing is saved or vectored. -/

namespace Sys2Proof.Machine

/-- R140: `halt <- 1`. -/
def execSyscall (s : State) : Host.Outcome State Fault Refusal :=
  .next { s with halt := true, flags := flagsAfter s.flags }

end Sys2Proof.Machine
end

