-- ==== Sys2Proof/Machine/Dispatch.lean ====
section
/-! DEFINITION. `execute(i)` of `40_fetch_decode_execute.md` R93: one arm per instruction, each one call of its meaning. -/

namespace Sys2Proof.Machine

def exec (i : Instr) (s : State) : Host.Outcome State Fault Refusal :=
  match i with
  | .add rd rs1 rs2 => Sys2Proof.Machine.execAdd rd rs1 rs2 s
  | .sub rd rs1 rs2 => Sys2Proof.Machine.execSub rd rs1 rs2 s
  | .mul rd rs1 rs2 => Sys2Proof.Machine.execMul rd rs1 rs2 s
  | .and rd rs1 rs2 => Sys2Proof.Machine.execAnd rd rs1 rs2 s
  | .or rd rs1 rs2 => Sys2Proof.Machine.execOr rd rs1 rs2 s
  | .xor rd rs1 rs2 => Sys2Proof.Machine.execXor rd rs1 rs2 s
  | .shl rd rs1 rs2 => Sys2Proof.Machine.execShl rd rs1 rs2 s
  | .shr rd rs1 rs2 => Sys2Proof.Machine.execShr rd rs1 rs2 s
  | .shrA rd rs1 rs2 => Sys2Proof.Machine.execShrA rd rs1 rs2 s
  | .addI rd rs imm => Sys2Proof.Machine.execAddI rd rs imm s
  | .lui rd imm => Sys2Proof.Machine.execLui rd imm s
  | .lw rd rs imm => Sys2Proof.Machine.execLw rd rs imm s
  | .sw rd rs imm => Sys2Proof.Machine.execSw rd rs imm s
  | .syscall => Sys2Proof.Machine.execSyscall s
  | .li rd imm => Sys2Proof.Machine.execLi rd imm s

end Sys2Proof.Machine
end

