-- ==== Sys2Proof/Machine/Step.lean ====
section
/-! DEFINITION. One step (`40_fetch_decode_execute.md` R91): fetch at `pc`, advance, decode, execute. -/

namespace Sys2Proof.Machine

/-- The host's STEP (`70_reset_and_hazards.md` R198): R91, refused while poisoned (R99). A halted machine steps like any other (R98). -/
def step (s : State) : Host.Outcome State Fault Refusal :=
  if s.poisoned then .refused .machinePoisoned
  else
    match fetch s with
    | .error e => raise (.memory e) s
    | .ok w =>
      match decode s.config.codec w with
      | .error e => raise (.decode e) s.advance
      | .ok i => exec i s.advance

/-- `s` with the instruction word whose bits are `w` (its bits from `nbits` up being 0) in the four bytes at `pc`, where the next
step fetches. It stands for the program load of `70_reset_and_hazards.md` R191 (log 11): memory alone changes. -/
def State.withFetchWord (s : State) (nbits w : Nat) : State :=
  { s with mem := s.mem.writeLE s.pc.toNat 4 (w % 2 ^ nbits) }

end Sys2Proof.Machine
end

