-- ==== Sys2Proof/Machine/Operations.lean ====
section
/-! DEFINITION. The host interface of `70_reset_and_hazards.md`: construction (R182), reset (R180), program load (R191 to R194), run
(`40_fetch_decode_execute.md` R92), reading a register (R200) and direct use of the memory checker (R201). -/

namespace Sys2Proof.Machine

/-! ## Reset and construction -/

/-- RESET (R180, R196): the state R24 lists; the configuration survives, the loaded program does not. -/
def State.restart (s : State) : State := State.resetWith s.config

/-- Construction (R182): a configuration outside the ranges of R6 builds no machine. -/
def State.construct (c : Config) : Option State :=
  if c.Valid then some (State.resetWith c) else none

/-! ## Loading a program -/

/-- Code's descriptor with Write added or removed: the load window (R22, R191). -/
def State.setCodeWrite (s : State) (b : Bool) : State :=
  { s with regions.code.perms.write := b }

/-- The bounds of Code for a program of `len` bytes (R35): left alone when `len` is 0. -/
def State.setCodeBounds (s : State) (len : Nat) : State :=
  if len = 0 then s
  else { s with regions.code.start := 0, regions.code.last := BitVec.ofNat 32 (len - 1) }

/-- The bounds of Data and Heap after a program of `len` bytes (R35): the one byte after Code, left alone when `len` is 0. -/
def State.setDataBounds (s : State) (len : Nat) : State :=
  if len = 0 then s
  else { s with
    regions.data.start := BitVec.ofNat 32 len, regions.data.last := BitVec.ofNat 32 len,
    regions.heap.start := BitVec.ofNat 32 len, regions.heap.last := BitVec.ofNat 32 len }

/-- The word writes of R191, from address `k` up, through the ordinary checker: the state after all of them, or the error of the
first that fails with the state it leaves. -/
def writeWords : List Byte → Nat → State → Except (MemoryError × State) State
  | b0 :: b1 :: b2 :: b3 :: rest, k, s =>
    match memWrite s (BitVec.ofNat 32 k) .word (BitVec.ofNat 32 (leToNat [b0, b1, b2, b3])) with
    | .ok t => writeWords rest (k + 4) t
    | .error e => .error (e, s)
  | _, _, s => .ok s

/-- What a host operation returns. -/
inductive Reply where
  /-- Done, with nothing to return. -/
  | ok
  /-- Done, returning a value. -/
  | value (v : Word)
  /-- Ended by an error (R150). -/
  | error (e : Error)
  deriving DecidableEq, Repr

/-- `load_program(bytes)` once it is allowed (R191, R192, R193). -/
def loadProgram (bytes : List Byte) (s : State) : Except Refusal (Reply × State) :=
  if bytes.length % 4 ≠ 0 then .ok (.error (.memory (s.config.loadLenErr bytes.length)), s)
  else if 2 ^ 32 ≤ bytes.length then .error .programTooLong
  else
    match writeWords bytes 0 ((s.setCodeBounds bytes.length).setCodeWrite true) with
    | .ok t => .ok (.ok, { (t.setCodeWrite false).setDataBounds bytes.length with loaded := true })
    | .error (e, t) => .ok (.error (.memory e), { t with poisoned := true })

/-! ## Running -/

/-- At most `n` turns of the loop of R92: `halt` is tested before each step, the first included (D19). -/
def runFor : Nat → State → Host.Outcome State Fault Refusal
  | 0, s => if s.halt then .next s else .refused .runUnbounded
  | n + 1, s =>
    if s.halt then .next s
    else
      match step s with
      | .next t => runFor n t
      | .fault f => .fault f
      | .refused r => .refused r

/-- `run()` (R92), refused while poisoned (R99). No run takes more than `floor(MEM_SIZE / 4)` successful steps (R96), so one turn more than that ends it (log 12). -/
def run (s : State) : Host.Outcome State Fault Refusal :=
  if s.poisoned then .refused .machinePoisoned else runFor (s.config.memSize / 4 + 1) s

/-! ## The host's operations -/

/-- The operations of R196 to R201. -/
inductive Operation where
  | reset
  | load (bytes : List Byte)
  | step
  | run
  | readReg (r : Reg)
  | memRead (addr : Word) (w : Width)
  | memWrite (addr : Word) (w : Width) (v : Word)
  | alignCheck (w : Width) (addr : Word)
  | stackStart
  deriving DecidableEq, Repr

/-- What a step or a run gives the host: ok, or the error, with the state R152 says it leaves. -/
def outcomeReply : Host.Outcome State Fault Refusal → Except Refusal (Reply × State)
  | .next t => .ok (.ok, t)
  | .fault (.raised e t) => .ok (.error e, t)
  | .refused r => .error r

/-- An operation that only asks: its value or its error, the state unchanged. -/
def query (s : State) : Except MemoryError Reply → Except Refusal (Reply × State)
  | .ok r => .ok (r, s)
  | .error e => .ok (.error (.memory e), s)

/-- The operations other than reset, on a machine that is not poisoned (R197 to R201). -/
def performReady (op : Operation) (s : State) : Except Refusal (Reply × State) :=
  match op with
  | .reset => .ok (.ok, s.restart)
  | .load bytes => if s.loaded then .error .alreadyLoaded else loadProgram bytes s
  | .step => outcomeReply (Machine.step s)
  | .run => outcomeReply (Machine.run s)
  | .readReg r => .ok (.value (s.readReg r), s)
  | .memRead addr w => query s ((Machine.memRead s addr w).map Reply.value)
  | .memWrite addr w v =>
    match Machine.memWrite s addr w v with
    | .ok t => .ok (.ok, t)
    | .error e => .ok (.error (.memory e), s)
  | .alignCheck w addr => query s ((Machine.alignCheck w addr).map fun _ => Reply.ok)
  | .stackStart => .ok (.value s.config.stackTop, s)

/-- One host operation (R204): what it returns and the state it leaves, or a refusal where the spec gives it no meaning. Only reset
has a meaning while the machine is poisoned (R193). -/
def perform (op : Operation) (s : State) : Except Refusal (Reply × State) :=
  if s.poisoned && decide (op ≠ .reset) then .error .machinePoisoned else performReady op s

end Sys2Proof.Machine
end

