-- ==== Sys2Proof/Safety.lean ====
section
/-! DEFINITION. What counts as a well-kept machine (`WellKept`), the region bounds of each phase of its life (`20_memory.md` R35), and the
words claims are stated in: what an operation leaves unchanged, and which words encode an instruction. -/

namespace Sys2Proof.Machine

/-! ## Regions in each phase -/

/-- The four descriptors after a load of `len` bytes, outside the load window (R35). With `len` = 0 they are also those of a
machine that has loaded nothing since reset. -/
def Regions.afterLoad (c : Config) (len : Nat) : Regions :=
  { code := { start := 0, last := BitVec.ofNat 32 (len - 1), perms := .readOnly }
    data := { start := BitVec.ofNat 32 len, last := BitVec.ofNat 32 len, perms := .readOnly }
    heap := { start := BitVec.ofNat 32 len, last := BitVec.ofNat 32 len, perms := .readWrite }
    stack := { start := c.stackLow, last := c.stackTop, perms := .readWrite } }

/-- The regions are those of a program of `len` bytes (R35, R190): a multiple of 4 that fits the memory. -/
structure HasProgram (s : State) (len : Nat) : Prop where
  multiple : len % 4 = 0
  fits : len ≤ s.config.memSize
  regions : s.regions = .afterLoad s.config len

/-! ## The invariant -/

/-- What the spec says of every reachable state: the configuration is legal (R182); memory is in canonical form and lists nothing at
or above `MEM_SIZE` (R30); the flags are 0 (R18); `pc` is a multiple of 4 no larger than `MEM_SIZE` (R15, R16); and, unless a load has
failed, the regions are those of R35, of no program before a load. -/
structure WellKept (s : State) : Prop where
  config : s.config.Valid
  canonical : s.mem.wf
  inside : ∀ c ∈ s.mem, c.1 < s.config.memSize
  flags : s.flags = 0
  aligned : s.pc.toNat % 4 = 0
  reached : s.pc.toNat ≤ s.config.memSize
  program : s.poisoned = false → ∃ len, HasProgram s len ∧ (s.loaded = false → len = 0)

/-! ## Frames -/

/-- Every register reads as before. -/
def SameRegisters (s t : State) : Prop := ∀ r, t.readReg r = s.readReg r

/-- Every byte of memory reads as before. -/
def SameMemory (s t : State) : Prop := ∀ a, t.byteAt a = s.byteAt a

/-- The program counter, the flags, the region descriptors, the engine's bits but `halt`, and the configuration are as before. -/
def SameControl (s t : State) : Prop :=
  t.pc = s.pc ∧ t.flags = s.flags ∧ t.regions = s.regions ∧ t.poisoned = s.poisoned ∧ t.loaded = s.loaded ∧ t.config = s.config

/-- Everything is as before but register `rd`. -/
def SameButRegister (rd : Reg) (s t : State) : Prop :=
  (∀ r, r ≠ rd → t.readReg r = s.readReg r) ∧ SameMemory s t ∧ t.halt = s.halt ∧ SameControl s t

/-- The four bytes at `a` hold `v`, least significant first (R32), and every byte outside them reads as before. -/
def StoredWord (a : Word) (v : Word) (s t : State) : Prop :=
  (∀ i, i < 4 → (t.byteAt (a.toNat + i)).toNat = v.toNat / 256 ^ i % 256) ∧
    ∀ b, (b < a.toNat ∨ a.toNat + 4 ≤ b) → t.byteAt b = s.byteAt b

/-! ## Encodings -/

/-- The bits `hi` down to `lo` of a word as a number (`w[hi:lo]` of `00_scope.md` section 6). -/
def bitSlice (w : Word) (hi lo : Nat) : Nat := w.toNat / 2 ^ lo % 2 ^ (hi + 1 - lo)

/-- The register a field value names (R68), from the field as a number. -/
def clamped (b : Nat) : Reg := if h : 1 ≤ b ∧ b ≤ 16 then ⟨b, Nat.lt_succ_of_le h.2⟩ else 0

/-- The signed value of an N-bit field, from the field as a number (R71). -/
def signedField (n b : Nat) : Int := if 2 ^ (n - 1) ≤ b then (b : Int) - 2 ^ n else b

/-- The bits the fields of a layout take (R63). -/
def widths (l : List Field) : Nat := (l.map fun f => f.kind.width).sum

/-- The bit a role's field starts at in a layout whose first field starts at bit `o` (R63). -/
def fieldOffset : Nat → List Field → Role → Nat
  | o, [], _ => o
  | o, f :: fs, r => if f.role = r then o else fieldOffset (o + f.kind.width) fs r

/-- The bit a role's field of a mnemonic starts at (R63: the first field starts at bit 8). -/
def placeOf (c : Codec) (k : Mnemonic) (r : Role) : Nat := fieldOffset 8 (c.layouts.layout k) r

/-- The `n` bits of a word where the field of a role stands. -/
def fieldAt (c : Codec) (k : Mnemonic) (r : Role) (n : Nat) (w : Word) : Nat := w.toNat / 2 ^ placeOf c k r % 2 ^ n

/-- Under any legal opcode map and layouts, every word with this mnemonic's opcode decodes to the instruction of its fields, three
registers; and under the layouts of R64 these are the fields of format R. -/
def DecodesAsR (k : Mnemonic) (i : Reg → Reg → Reg → Instr) : Prop :=
  ∀ (c : Codec) (w : Word), c.Valid → bitSlice w 7 0 = (c.opc.code k).toNat →
    decode c w = .ok (i (clamped (fieldAt c k .rd 5 w)) (clamped (fieldAt c k .rs1 5 w)) (clamped (fieldAt c k .rs2 5 w))) ∧
    (c.layouts = defaultLayouts → fieldAt c k .rd 5 w = bitSlice w 12 8 ∧ fieldAt c k .rs1 5 w = bitSlice w 17 13 ∧
      fieldAt c k .rs2 5 w = bitSlice w 22 18)

/-- The same for format I. -/
def DecodesAsI (k : Mnemonic) (i : Reg → Reg → Int → Instr) : Prop :=
  ∀ (c : Codec) (w : Word), c.Valid → bitSlice w 7 0 = (c.opc.code k).toNat →
    decode c w = .ok (i (clamped (fieldAt c k .rd 5 w)) (clamped (fieldAt c k .rs 5 w)) (signedField 14 (fieldAt c k .imm 14 w))) ∧
    (c.layouts = defaultLayouts → fieldAt c k .rd 5 w = bitSlice w 12 8 ∧ fieldAt c k .rs 5 w = bitSlice w 17 13 ∧
      fieldAt c k .imm 14 w = bitSlice w 31 18)

/-- The same for format U. -/
def DecodesAsU (k : Mnemonic) (i : Reg → Int → Instr) : Prop :=
  ∀ (c : Codec) (w : Word), c.Valid → bitSlice w 7 0 = (c.opc.code k).toNat →
    decode c w = .ok (i (clamped (fieldAt c k .rd 5 w)) (signedField 19 (fieldAt c k .imm 19 w))) ∧
    (c.layouts = defaultLayouts → fieldAt c k .rd 5 w = bitSlice w 12 8 ∧ fieldAt c k .imm 19 w = bitSlice w 31 13)

/-- The same for format N. -/
def DecodesAsN (k : Mnemonic) (i : Instr) : Prop :=
  ∀ (c : Codec) (w : Word), c.Valid → bitSlice w 7 0 = (c.opc.code k).toNat → decode c w = .ok i

end Sys2Proof.Machine
end

