-- ==== Sys2Proof/Certificates/Slice0/Obligations.lean ====
section
/-! DEFINITION. The statements about the Rivet VM core, one `def Obligations.<Name> : Prop` each. Titles, rules and quotations are in
OBLIGATIONS.json. Every statement holds for every configuration its hypotheses admit; none rests on the sizes of `State.reset`. -/

open Sys2Proof Sys2Proof.Machine

/-! ## Reset and construction -/

/-- R180: RESET is done in any state and leaves what the rule lists; construction gives the same state. (The flags word, which the model
keeps by log 6, is in `ResetMeetsTheInvariant`.) -/
def Obligations.ResetLeavesTheSpecifiedState : Prop :=
  ∀ s : State, s.config.Valid →
    ∃ t, perform .reset s = .ok (.ok, t) ∧ State.construct s.config = some t ∧
      (∀ r, t.readReg r = 0) ∧ t.pc = 0 ∧ t.halt = false ∧ t.poisoned = false ∧ t.loaded = false ∧
      (∀ a, t.byteAt a = 0) ∧
      t.regions.code = { start := 0, last := 0, perms := { read := true, write := false, execute := false } } ∧
      t.regions.data = { start := 0, last := 0, perms := { read := true, write := false, execute := false } } ∧
      t.regions.heap = { start := 0, last := 0, perms := { read := true, write := true, execute := false } } ∧
      t.regions.stack.start.toNat = s.config.memSize - s.config.stackSize ∧
      t.regions.stack.last.toNat = s.config.memSize - 1 ∧
      t.regions.stack.perms = { read := true, write := true, execute := false } ∧
      t.config = s.config

/-- R6, R26, R182: exactly the legal configurations build a machine. Each mnemonic's layout may be any reordering of the fields R64 gives
it: that this is the range of the parameter is the model's reading (log 15). -/
def Obligations.OnlyLegalConfigurationsBuildAMachine : Prop :=
  ∀ c : Config, (State.construct c).isSome ↔
    1 ≤ c.memSize ∧ c.memSize ≤ 2 ^ 32 - 1 ∧ c.stackSize ≤ c.memSize ∧
    (∀ j k, c.codec.opc.code j = c.codec.opc.code k → j = k) ∧
    ∀ k, (c.codec.layouts.layout k).Perm
      (if k = .syscall then []
      else if k ∈ [Mnemonic.lui, .li] then [⟨.rd, .register⟩, ⟨.imm, .immediate 19⟩]
      else if k ∈ [Mnemonic.addI, .lw, .sw] then [⟨.rd, .register⟩, ⟨.rs, .register⟩, ⟨.imm, .immediate 14⟩]
      else [⟨.rd, .register⟩, ⟨.rs1, .register⟩, ⟨.rs2, .register⟩])

/-- Every machine starts well kept, the one of `State.reset` (whose sizes are the model's choice, log 2) among them. -/
def Obligations.ResetMeetsTheInvariant : Prop :=
  (∀ c : Config, c.Valid → WellKept (State.resetWith c)) ∧ WellKept State.reset

/-! ## Encoding -/

/-- R68 with R66: the clamp, on every field value, and its agreement with the encoder on every register. -/
def Obligations.RegisterFieldsClamp : Prop :=
  (∀ b : BitVec 5, (1 ≤ b.toNat ∧ b.toNat ≤ 16 → (regdec b).val = b.toNat) ∧
    (b.toNat = 0 ∨ 17 ≤ b.toNat → regdec b = regZero)) ∧
  ∀ r : Reg, (regenc r).toNat = r.val ∧ regdec (regenc r) = r

/-- R71: the sign reconstruction, exact and invertible, for both widths. -/
def Obligations.ImmediatesAreInvertible : Prop :=
  ∀ n : Nat, n = 14 ∨ n = 19 →
    (∀ b : BitVec n, fromBits n b = (if 2 ^ (n - 1) ≤ b.toNat then (b.toNat : Int) - 2 ^ n else b.toNat) ∧
      -(2 ^ (n - 1)) ≤ fromBits n b ∧ fromBits n b ≤ 2 ^ (n - 1) - 1 ∧
      immWord (fromBits n b) = b.signExtend 32 ∧ toBits n (fromBits n b) = b) ∧
    ∀ v : Int, -(2 ^ (n - 1)) ≤ v → v ≤ 2 ^ (n - 1) - 1 →
      ((toBits n v).toNat : Int) = v % 2 ^ n ∧ fromBits n (toBits n v) = v

/-- R80: the bounds check of an immediate, and the encoder that makes it. The form of the failure, a returned error, is decision D28. -/
def Obligations.ImmediateConstructionChecksTheRange : Prop :=
  (∀ v : Int, newImmediate 14 v = if -8192 ≤ v ∧ v ≤ 8191 then .ok v else .error (.immediateOutOfRange v 14)) ∧
  (∀ v : Int, newImmediate 19 v = if -262144 ≤ v ∧ v ≤ 262143 then .ok v else .error (.immediateOutOfRange v 19)) ∧
  ∀ (c : Codec) (i : Instr),
    (WellFormed i → assemble c i = .ok (encode c i)) ∧
    (∀ n v, i.immediate = some (n, v) → ¬ WellFormed i → assemble c i = .error (.immediateOutOfRange v n)) ∧
    ∀ w n v, c.Valid → decode c w = .ok i → i.immediate = some (n, v) → newImmediate n v = .ok v

/-- R75: decode undoes encode, for every legal opcode map and layouts and every instruction with operands the encoding admits; encode
undoes decode exactly on the words with no unused bit set and no register field above 16; decode is not injective. R75 marks its
second sentence, which the last two clauses make exact, as derived. -/
def Obligations.DecodeUndoesEncode : Prop :=
  (∀ (c : Codec) (i : Instr), c.Valid → WellFormed i → decode c (encode c i) = .ok i) ∧
  (∀ (c : Codec) (w : Word) (i : Instr), c.Valid → decode c w = .ok i →
    (encode c i = w ↔
      (∀ r, ⟨r, .register⟩ ∈ c.layouts.layout i.mnemonic → fieldAt c i.mnemonic r 5 w ≤ 16) ∧
      (i.mnemonic ∈ [Mnemonic.add, .sub, .mul, .and, .or, .xor, .shl, .shr, .shrA] → bitSlice w 31 23 = 0) ∧
      (i.mnemonic = .syscall → bitSlice w 31 8 = 0))) ∧
  ∃ v w : Word, v ≠ w ∧ decode defaultCodec v = decode defaultCodec w ∧ ∃ i, decode defaultCodec w = .ok i

/-- R74: a word is refused exactly when its low byte is no assigned opcode, and the error carries that byte. The last clause is
under the spec's default map, decision D1 (log 3). -/
def Obligations.OnlyUnassignedOpcodesAreRefused : Prop :=
  (∀ (c : Codec) (w : Word),
    ((∀ k, (c.opc.code k).toNat ≠ bitSlice w 7 0) → decode c w = .error (.unknownOpcode (BitVec.ofNat 8 (bitSlice w 7 0)))) ∧
    ∀ k, (c.opc.code k).toNat = bitSlice w 7 0 → ∃ i, decode c w = .ok i) ∧
  ∀ w : Word, (∃ e, decode defaultCodec w = .error e) ↔ bitSlice w 7 0 = 0 ∨ 16 ≤ bitSlice w 7 0

/-- R71, R72: what decode gives is an instruction of the word's opcode with every operand in range. -/
def Obligations.DecodedInstructionsAreWellFormed : Prop :=
  ∀ (c : Codec) (w : Word) (i : Instr), c.Valid → decode c w = .ok i →
    WellFormed i ∧ (c.opc.code i.mnemonic).toNat = bitSlice w 7 0

/-- R65, which the spec marks as derived (and D4): the bits no field covers change nothing on decode and are 0 on encode. -/
def Obligations.UnusedBitsAreIgnored : Prop :=
  ∀ c : Codec, c.Valid →
    (∀ (v w : Word) (k : Mnemonic), bitSlice w 7 0 = (c.opc.code k).toNat →
      k ∈ [Mnemonic.add, .sub, .mul, .and, .or, .xor, .shl, .shr, .shrA] →
      bitSlice v 22 0 = bitSlice w 22 0 → decode c v = decode c w) ∧
    (∀ v w : Word, bitSlice w 7 0 = (c.opc.code .syscall).toNat → bitSlice v 7 0 = bitSlice w 7 0 → decode c v = decode c w) ∧
    ∀ i : Instr,
      (i.mnemonic ∈ [Mnemonic.add, .sub, .mul, .and, .or, .xor, .shl, .shr, .shrA] → bitSlice (encode c i) 31 23 = 0) ∧
      (i.mnemonic = .syscall → bitSlice (encode c i) 31 8 = 0)

/-- R73, R62: the word of an instruction is its opcode plus each field at its place; the places under the layouts of R64 (D3, log 15). -/
def Obligations.EncodePlacesEveryField : Prop :=
  (∀ (c : Codec) (i : Instr), c.Valid → ((encode c i).toNat : Int) = (c.opc.code i.mnemonic).toNat +
    match i with
    | .add x y z | .sub x y z | .mul x y z | .and x y z | .or x y z | .xor x y z | .shl x y z | .shr x y z | .shrA x y z =>
      x.val * 2 ^ placeOf c i.mnemonic .rd + y.val * 2 ^ placeOf c i.mnemonic .rs1 + z.val * 2 ^ placeOf c i.mnemonic .rs2
    | .addI x y v | .lw x y v | .sw x y v =>
      x.val * 2 ^ placeOf c i.mnemonic .rd + y.val * 2 ^ placeOf c i.mnemonic .rs + v % 2 ^ 14 * 2 ^ placeOf c i.mnemonic .imm
    | .lui x v | .li x v => x.val * 2 ^ placeOf c i.mnemonic .rd + v % 2 ^ 19 * 2 ^ placeOf c i.mnemonic .imm
    | .syscall => 0) ∧
  ∀ c : Codec, c.layouts = defaultLayouts →
    (∀ k ∈ [Mnemonic.add, .sub, .mul, .and, .or, .xor, .shl, .shr, .shrA],
      placeOf c k .rd = 8 ∧ placeOf c k .rs1 = 13 ∧ placeOf c k .rs2 = 18) ∧
    (∀ k ∈ [Mnemonic.addI, .lw, .sw], placeOf c k .rd = 8 ∧ placeOf c k .rs = 13 ∧ placeOf c k .imm = 18) ∧
    ∀ k ∈ [Mnemonic.lui, .li], placeOf c k .rd = 8 ∧ placeOf c k .imm = 13

/-- R63, R81, R26: whatever legal layouts are configured, they fit the word, each field starts where the fields before it end, decode
reads every operand from its field and encode puts it there. -/
def Obligations.CodecFollowsTheLayoutTable : Prop :=
  ∀ c : Codec, c.Valid →
    (∀ k, 8 + widths (c.layouts.layout k) =
      if k ∈ [Mnemonic.addI, .lui, .lw, .sw, .li] then 32 else if k = .syscall then 8 else 23) ∧
    (∀ k before f after, c.layouts.layout k = before ++ f :: after →
      placeOf c k f.role = 8 + widths before) ∧
    (∀ w i, decode c w = .ok i → ∀ f ∈ c.layouts.layout i.mnemonic,
      i.operands.lookup f.role = some (f.kind.read (fieldAt c i.mnemonic f.role f.kind.width w))) ∧
    ∀ i, ∀ f ∈ c.layouts.layout i.mnemonic, ∃ x, i.operands.lookup f.role = some x ∧
      fieldAt c i.mnemonic f.role f.kind.width (encode c i) = x.bits f.kind.width

/-- Words of the spec's own tables (section 9 of `30_encoding.md`, V-DEC), one of each format and two that must clamp or ignore. -/
def Obligations.SampleWordsDecode : Prop :=
  defaultCodec.Valid ∧
  decode defaultCodec 0x001CC501 = .ok (.add regT0 regT1 regT2) ∧
  decode defaultCodec 0xFFFCA50A = .ok (.addI regT0 regT0 (-1)) ∧
  decode defaultCodec 0x0000A20D = .ok (.sw regSP regT0 0) ∧
  decode defaultCodec 0x80000D0F = .ok (.li regA0 (-262144)) ∧
  decode defaultCodec 0xABCDEF0E = .ok .syscall ∧
  decode defaultCodec 0x00403F01 = .ok (.add regZero regRA regA3) ∧
  decode defaultCodec 0x12345678 = .error (.unknownOpcode 0x78)

/-! ## The memory checker -/

/-- R34, R33: the owner is the first region of Code, Data, Heap, Stack whose inclusive bounds hold the address. -/
def Obligations.FirstMatchingRegionOwns : Prop :=
  ∀ (rs : Regions) (a : Word), rs.owner a =
    (if rs.code.start.toNat ≤ a.toNat ∧ a.toNat ≤ rs.code.last.toNat then some .code
    else if rs.data.start.toNat ≤ a.toNat ∧ a.toNat ≤ rs.data.last.toNat then some .data
    else if rs.heap.start.toNat ≤ a.toNat ∧ a.toNat ≤ rs.heap.last.toNat then some .heap
    else if rs.stack.start.toNat ≤ a.toNat ∧ a.toNat ≤ rs.stack.last.toNat then some .stack
    else none)

/-- R40: `MemRead` judges capacity, region, permission in that order and then gives the little-endian value. The sizes are
decision D23, the capacity of the whole access D11, the owner of the first byte alone D12. -/
def Obligations.CheckedReadsFollowTheRule : Prop :=
  ∀ (s : State) (a : Word) (w : Width),
    (s.config.memSize < a.toNat + w.bytes → memRead s a w = .error .outOfBounds) ∧
    (a.toNat + w.bytes ≤ s.config.memSize →
      (s.regions.owner a = none → memRead s a w = .error .invalidAddress) ∧
      ∀ k, s.regions.owner a = some k →
        ((s.regions.region k).perms.read = false → memRead s a w = .error (.permissionDenied .read a)) ∧
        ((s.regions.region k).perms.read = true → ∃ v, memRead s a w = .ok v ∧
          v.toNat = ((List.range w.bytes).map fun i => 2 ^ (8 * i) * (s.byteAt (a.toNat + i)).toNat).sum))

/-- R41: `MemWrite` judges capacity, region, permission in that order and then writes its `n` bytes, those and no others.
Decisions D11, D12 and D23 as above. -/
def Obligations.CheckedWritesFollowTheRule : Prop :=
  ∀ (s : State) (a : Word) (w : Width) (v : Word),
    (s.config.memSize < a.toNat + w.bytes → memWrite s a w v = .error .outOfBounds) ∧
    (a.toNat + w.bytes ≤ s.config.memSize →
      (s.regions.owner a = none → memWrite s a w v = .error .invalidAddress) ∧
      ∀ k, s.regions.owner a = some k →
        ((s.regions.region k).perms.write = false → memWrite s a w v = .error (.permissionDenied .write a)) ∧
        ((s.regions.region k).perms.write = true → ∃ t, memWrite s a w v = .ok t ∧
          (∀ i, i < w.bytes → (t.byteAt (a.toNat + i)).toNat = v.toNat / 2 ^ (8 * i) % 256) ∧
          (∀ b, (b < a.toNat ∨ a.toNat + w.bytes ≤ b) → t.byteAt b = s.byteAt b) ∧
          SameRegisters s t ∧ t.halt = s.halt ∧ SameControl s t))

/-- R55: a read after a write of the same address and size gives the value written. -/
def Obligations.ReadAfterWriteGivesTheValue : Prop :=
  ∀ (s t : State) (a : Word) (w : Width) (v : Word) (k : RegionKind),
    memWrite s a w v = .ok t → t.regions.owner a = some k → (t.regions.region k).perms.read = true →
      ∃ u, memRead t a w = .ok u ∧ u.toNat = v.toNat % 2 ^ (8 * w.bytes)

/-- R32: a narrower read of a word just written sees the bytes the little-endian order puts there. -/
def Obligations.NarrowReadsSeeLittleEndianParts : Prop :=
  ∀ (s t : State) (a : Word) (v u : Word), s.config.Valid → memWrite s a .word v = .ok t →
    (∀ i, i < 4 → memRead t (a + BitVec.ofNat 32 i) .byte = .ok u → u.toNat = v.toNat / 256 ^ i % 256) ∧
    (∀ i, i < 3 → memRead t (a + BitVec.ofNat 32 i) .half = .ok u → u.toNat = v.toNat / 256 ^ i % 65536)

/-- R44: the alignment check, on its three sizes (decision D23); it depends on the address alone. -/
def Obligations.AlignmentCheckFollowsTheRule : Prop :=
  ∀ (w : Width) (a : Word), w.bytes ∈ [1, 2, 4] ∧
    (a.toNat % w.bytes = 0 → alignCheck w a = .ok ()) ∧
    (a.toNat % w.bytes ≠ 0 → alignCheck w a = .error (.unalignedAccess a w.bytes))

/-- R56: a write into a region without Write is denied; after reset and before any load that is the fate of a write to address 0, for
every size that fits the memory. -/
def Obligations.WriteToZeroBeforeLoadIsDenied : Prop :=
  (∀ (s : State) (a : Word) (w : Width) (v : Word) (k : RegionKind), a.toNat + w.bytes ≤ s.config.memSize →
    s.regions.owner a = some k → (s.regions.region k).perms.write = false →
    memWrite s a w v = .error (.permissionDenied .write a)) ∧
  ∀ (c : Config) (w : Width) (v : Word), c.Valid → w.bytes ≤ c.memSize →
    memWrite (State.resetWith c) 0 w v = .error (.permissionDenied .write 0)

/-- R37: who owns each address once a program of `len` bytes is loaded, and, with `len` = 0, before any load. -/
def Obligations.OwnersFollowTheMap : Prop :=
  ∀ (s : State) (len : Nat) (a : Word), s.config.Valid → HasProgram s len → a.toNat < s.config.memSize →
    (0 < len → s.regions.owner a =
      (if a.toNat < len then some .code
      else if a.toNat = len then some .data
      else if s.config.memSize - s.config.stackSize ≤ a.toNat then some .stack
      else none)) ∧
    (len = 0 → s.regions.owner a =
      (if a.toNat = 0 then some .code
      else if s.config.memSize - s.config.stackSize ≤ a.toNat then some .stack
      else none)) ∧
    s.regions.owner a ≠ some .heap

/-! ## Arithmetic and logic -/

/-- R101. -/
def Obligations.AddFollowsItsRule : Prop :=
  DecodesAsR .add .add ∧
  ∀ (rd rs1 rs2 : Reg) (s : State), ∃ t, exec (.add rd rs1 rs2) s = .next t ∧
    (t.readReg rd).toNat = ((s.readReg rs1).toNat + (s.readReg rs2).toNat) % 2 ^ 32 ∧ SameButRegister rd s t

/-- R102, the first source the minuend (decision D8). -/
def Obligations.SubFollowsItsRule : Prop :=
  DecodesAsR .sub .sub ∧
  ∀ (rd rs1 rs2 : Reg) (s : State), ∃ t, exec (.sub rd rs1 rs2) s = .next t ∧
    ((t.readReg rd).toNat : Int) = ((s.readReg rs1).toNat - (s.readReg rs2).toNat : Int) % 2 ^ 32 ∧ SameButRegister rd s t

/-- R103. -/
def Obligations.MulFollowsItsRule : Prop :=
  DecodesAsR .mul .mul ∧
  ∀ (rd rs1 rs2 : Reg) (s : State), ∃ t, exec (.mul rd rs1 rs2) s = .next t ∧
    (t.readReg rd).toNat = (s.readReg rs1).toNat * (s.readReg rs2).toNat % 2 ^ 32 ∧ SameButRegister rd s t

/-- R104. -/
def Obligations.AndFollowsItsRule : Prop :=
  DecodesAsR .and .and ∧
  ∀ (rd rs1 rs2 : Reg) (s : State), ∃ t, exec (.and rd rs1 rs2) s = .next t ∧
    (∀ i, i < 32 → (t.readReg rd).getLsbD i = ((s.readReg rs1).getLsbD i && (s.readReg rs2).getLsbD i)) ∧ SameButRegister rd s t

/-- R105. -/
def Obligations.OrFollowsItsRule : Prop :=
  DecodesAsR .or .or ∧
  ∀ (rd rs1 rs2 : Reg) (s : State), ∃ t, exec (.or rd rs1 rs2) s = .next t ∧
    (∀ i, i < 32 → (t.readReg rd).getLsbD i = ((s.readReg rs1).getLsbD i || (s.readReg rs2).getLsbD i)) ∧ SameButRegister rd s t

/-- R106. -/
def Obligations.XorFollowsItsRule : Prop :=
  DecodesAsR .xor .xor ∧
  ∀ (rd rs1 rs2 : Reg) (s : State), ∃ t, exec (.xor rd rs1 rs2) s = .next t ∧
    (∀ i, i < 32 → (t.readReg rd).getLsbD i = ((s.readReg rs1).getLsbD i).xor ((s.readReg rs2).getLsbD i)) ∧ SameButRegister rd s t

/-! ## Shifts -/

/-- R114: the amount is `SHAMT`, at most 31, and by default the low five bits of the register (decision D7);
every function can be configured (log 4). -/
def Obligations.ShiftAmountsFollowTheRule : Prop :=
  (∀ (s : State) (v : Word), shiftAmount s v ≤ 31 ∧
    (s.config.shamtTable = [] → shiftAmount s v = v.toNat % 32)) ∧
  ∀ (c : Config) (f : Word → Fin 32), ∃ table, Config.shamt { c with shamtTable := table } = f

/-- R111, the first source shifted by the second (decision D8), by `SHAMT` of it (D7, a parameter). -/
def Obligations.ShiftLeftFollowsItsRule : Prop :=
  DecodesAsR .shl .shl ∧
  ∀ (rd rs1 rs2 : Reg) (s : State), ∃ t, exec (.shl rd rs1 rs2) s = .next t ∧
    (t.readReg rd).toNat = (s.readReg rs1).toNat * 2 ^ (s.config.shamt (s.readReg rs2)).val % 2 ^ 32 ∧ SameButRegister rd s t

/-- R112, with D7 and D8 as above. -/
def Obligations.ShiftRightFollowsItsRule : Prop :=
  DecodesAsR .shr .shr ∧
  ∀ (rd rs1 rs2 : Reg) (s : State), ∃ t, exec (.shr rd rs1 rs2) s = .next t ∧
    (t.readReg rd).toNat = (s.readReg rs1).toNat / 2 ^ (s.config.shamt (s.readReg rs2)).val ∧ SameButRegister rd s t

/-- R113, with D7 and D8 as above. The division rounds toward minus infinity. -/
def Obligations.ArithmeticShiftFollowsItsRule : Prop :=
  DecodesAsR .shrA .shrA ∧
  ∀ (rd rs1 rs2 : Reg) (s : State), ∃ t, exec (.shrA rd rs1 rs2) s = .next t ∧
    ((t.readReg rd).toNat : Int) =
      Int.fdiv (signed (s.readReg rs1)) (2 ^ (s.config.shamt (s.readReg rs2)).val) % 2 ^ 32 ∧ SameButRegister rd s t

/-! ## Immediate instructions -/

/-- R120. -/
def Obligations.AddImmediateFollowsItsRule : Prop :=
  DecodesAsI .addI .addI ∧
  ∀ (rd rs : Reg) (imm : Int) (s : State), ∃ t, exec (.addI rd rs imm) s = .next t ∧
    ((t.readReg rd).toNat : Int) = ((s.readReg rs).toNat + imm) % 2 ^ 32 ∧ SameButRegister rd s t

/-- R121: not shifted, whatever the name suggests, and sign-extended: decision D9. -/
def Obligations.LuiFollowsItsRule : Prop :=
  DecodesAsU .lui .lui ∧
  ∀ (rd : Reg) (imm : Int) (s : State), ∃ t, exec (.lui rd imm) s = .next t ∧
    ((t.readReg rd).toNat : Int) = imm % 2 ^ 32 ∧ SameButRegister rd s t

/-- R122: Li does what Lui does (decision D9). -/
def Obligations.LiFollowsItsRule : Prop :=
  DecodesAsU .li .li ∧
  ∀ (rd : Reg) (imm : Int) (s : State), exec (.li rd imm) s = exec (.lui rd imm) s ∧
    ∃ t, exec (.li rd imm) s = .next t ∧ ((t.readReg rd).toNat : Int) = imm % 2 ^ 32 ∧ SameButRegister rd s t

/-! ## Load and store -/

/-- R130: base plus offset modulo 2^32 (decision D10). -/
def Obligations.EffectiveAddressWraps : Prop :=
  ∀ (s : State) (base : Reg) (imm : Int),
    ((effectiveAddress s base imm).toNat : Int) = ((s.readReg base).toNat + imm) % 2 ^ 32

/-- R131, with the four errors in the order of R133. An error leaves the state `Lw` was executed in. -/
def Obligations.LoadWordFollowsItsRule : Prop :=
  DecodesAsI .lw .lw ∧
  ∀ (rd rs : Reg) (imm : Int) (s : State) (a : Word), (a.toNat : Int) = ((s.readReg rs).toNat + imm) % 2 ^ 32 →
    (a.toNat % 4 ≠ 0 → exec (.lw rd rs imm) s = .fault (.raised (.memory (.unalignedAccess a 4)) s)) ∧
    (a.toNat % 4 = 0 →
      (s.config.memSize < a.toNat + 4 → exec (.lw rd rs imm) s = .fault (.raised (.memory .outOfBounds) s)) ∧
      (a.toNat + 4 ≤ s.config.memSize →
        (s.regions.owner a = none → exec (.lw rd rs imm) s = .fault (.raised (.memory .invalidAddress) s)) ∧
        ∀ k, s.regions.owner a = some k →
          ((s.regions.region k).perms.read = false →
            exec (.lw rd rs imm) s = .fault (.raised (.memory (.permissionDenied .read a)) s)) ∧
          ((s.regions.region k).perms.read = true → ∃ t, exec (.lw rd rs imm) s = .next t ∧
            (t.readReg rd).toNat = (s.byteAt a.toNat).toNat + 2 ^ 8 * (s.byteAt (a.toNat + 1)).toNat +
              2 ^ 16 * (s.byteAt (a.toNat + 2)).toNat + 2 ^ 24 * (s.byteAt (a.toNat + 3)).toNat ∧
            SameButRegister rd s t)))

/-- R132, with the four errors in the order of R133. The base is `rd`, the register stored `rs`. -/
def Obligations.StoreWordFollowsItsRule : Prop :=
  DecodesAsI .sw .sw ∧
  ∀ (rd rs : Reg) (imm : Int) (s : State) (a : Word), (a.toNat : Int) = ((s.readReg rd).toNat + imm) % 2 ^ 32 →
    (a.toNat % 4 ≠ 0 → exec (.sw rd rs imm) s = .fault (.raised (.memory (.unalignedAccess a 4)) s)) ∧
    (a.toNat % 4 = 0 →
      (s.config.memSize < a.toNat + 4 → exec (.sw rd rs imm) s = .fault (.raised (.memory .outOfBounds) s)) ∧
      (a.toNat + 4 ≤ s.config.memSize →
        (s.regions.owner a = none → exec (.sw rd rs imm) s = .fault (.raised (.memory .invalidAddress) s)) ∧
        ∀ k, s.regions.owner a = some k →
          ((s.regions.region k).perms.write = false →
            exec (.sw rd rs imm) s = .fault (.raised (.memory (.permissionDenied .write a)) s)) ∧
          ((s.regions.region k).perms.write = true → ∃ t, exec (.sw rd rs imm) s = .next t ∧
            StoredWord a (s.readReg rs) s t ∧ SameRegisters s t ∧ t.halt = s.halt ∧ SameControl s t)))

/-- The frame of `Sw` in terms of the model's own address computation: whenever it completes, only its four bytes can change. -/
def Obligations.StoreWordChangesOnlyItsFourBytes : Prop :=
  ∀ (rd rs : Reg) (imm : Int) (s t : State) (a : Word), exec (.sw rd rs imm) s = .next t → effectiveAddress s rd imm = a →
    StoredWord a (s.readReg rs) s t ∧ SameRegisters s t ∧ t.halt = s.halt ∧ SameControl s t

/-! ## System -/

/-- R140. That it has no operand and bits 31:8 are ignored is decision D4. -/
def Obligations.SyscallFollowsItsRule : Prop :=
  DecodesAsN .syscall .syscall ∧
  ∀ s : State, ∃ t, exec .syscall s = .next t ∧ t.halt = true ∧ SameRegisters s t ∧ SameMemory s t ∧ SameControl s t

/-! ## One step -/

/-- R91: a step is fetch, advance, decode, execute, in that order; it runs the instruction it decoded. -/
def Obligations.StepRunsTheDecodedInstruction : Prop :=
  ∀ s : State, s.poisoned = false →
    (∀ e, memRead s s.pc .word = .error e → step s = .fault (.raised (.memory e) s)) ∧
    ∀ w, memRead s s.pc .word = .ok w →
      (∀ e, decode s.config.codec w = .error e → step s = .fault (.raised (.decode e) { s with pc := s.pc + 4 })) ∧
      ∀ i, decode s.config.codec w = .ok i → step s = exec i { s with pc := s.pc + 4 }

/-- R152: an error leaves the machine as it was, but that `pc` has advanced when the error came after the fetch.
That `halt` stays as it was is decision D20. -/
def Obligations.ErrorsLeaveWhatTheStepHadDone : Prop :=
  ∀ (s left : State) (e : Error), step s = .fault (.raised e left) →
    (∀ f, memRead s s.pc .word = .error f → e = .memory f ∧ left = s) ∧
    (∀ w, memRead s s.pc .word = .ok w → left = { s with pc := s.pc + 4 }) ∧
    left.halt = s.halt ∧ SameRegisters s left ∧ SameMemory s left

/-- R93, R100, R110: execution never refuses, and only `Lw` and `Sw` can raise an error in it. -/
def Obligations.OnlyLoadsAndStoresRaiseInExecute : Prop :=
  ∀ (i : Instr) (s : State), (∀ r, exec i s ≠ .refused r) ∧
    ∀ f, exec i s = .fault f → (∃ rd rs imm, i = .lw rd rs imm ∨ i = .sw rd rs imm) ∧ ∃ e, f = .raised (.memory e) s

/-- R17, R90: a step that completes sets `halt` exactly when it ran a Syscall, and never clears it. -/
def Obligations.OnlySyscallSetsHalt : Prop :=
  ∀ s t : State, s.config.codec.opc.Injective → step s = .next t →
    (t.halt = true ↔ s.halt = true ∨
      ∃ w, memRead s s.pc .word = .ok w ∧ bitSlice w 7 0 = (s.config.codec.opc.code .syscall).toNat)

/-- R16, R95: every step that completes moves `pc` on by exactly 4, without wrap. -/
def Obligations.PcAdvancesByFour : Prop :=
  ∀ s t : State, s.config.Valid → step s = .next t →
    t.pc.toNat = s.pc.toNat + 4 ∧ t.pc.toNat ≤ s.config.memSize

/-- R23, R18, R26: no step that completes changes a region descriptor, the flags, `poisoned`, `loaded` or the configuration. -/
def Obligations.StepsLeaveTheControlState : Prop :=
  ∀ s t : State, step s = .next t →
    t.regions = s.regions ∧ t.flags = s.flags ∧ t.poisoned = s.poisoned ∧ t.loaded = s.loaded ∧ t.config = s.config

/-- R18: the flags word affects nothing: steps from two states that differ in it alone end alike, but for the word itself. -/
def Obligations.FlagsAffectNothing : Prop :=
  ∀ (s : State) (v : Word),
    step { s with flags := v } =
      match step s with
      | .next t => .next { t with flags := v }
      | .fault (.raised e left) => .fault (.raised e { left with flags := v })
      | .refused r => .refused r

/-! ## The whole machine -/

/-- Every step keeps the invariant. -/
def Obligations.StepKeepsTheInvariant : Prop :=
  ∀ s t : State, WellKept s → step s = .next t → WellKept t

/-- Every host operation keeps the invariant, whether it ends in a value or in an error. -/
def Obligations.HostOperationsKeepTheInvariant : Prop :=
  ∀ (op : Operation) (s t : State) (r : Reply), WellKept s → perform op s = .ok (r, t) → WellKept t

/-- R37, R50, R97: what a step changes in memory lies in the Stack region and beyond the code and the word after it. -/
def Obligations.ProgramsWriteOnlyTheStack : Prop :=
  ∀ (s t : State) (len a : Nat), WellKept s → HasProgram s len → step s = .next t → t.byteAt a ≠ s.byteAt a →
    s.config.memSize - s.config.stackSize ≤ a ∧ a < s.config.memSize ∧ len + 4 ≤ a

/-- R155, R157: a step of a well-kept machine is denied no permission but Write, and no step ever raises `OutOfMemory`. -/
def Obligations.ReadsAreNeverDenied : Prop :=
  (∀ (s left : State) (p : Permission) (a : Word), WellKept s →
    step s = .fault (.raised (.memory (.permissionDenied p a)) left) → p = .write) ∧
  ∀ s left : State, step s ≠ .fault (.raised (.memory .outOfMemory) left)

/-- R97: what the step after the last instruction of a program does. -/
def Obligations.RunningOffTheEndIsAnError : Prop :=
  (∀ (s : State) (len : Nat), s.config.Valid → HasProgram s len → 0 < len → s.poisoned = false → s.pc.toNat = len →
    (s.config.memSize < len + 4 → step s = .fault (.raised (.memory .outOfBounds) s)) ∧
    (len + 4 ≤ s.config.memSize → (∀ i, i < 4 → s.byteAt (len + i) = 0) → (∀ k, s.config.codec.opc.code k ≠ 0) →
      step s = .fault (.raised (.decode (.unknownOpcode 0)) { s with pc := BitVec.ofNat 32 (len + 4) }))) ∧
  ∀ c : Config, c.Valid →
    (c.memSize < 4 → step (State.resetWith c) = .fault (.raised (.memory .outOfBounds) (State.resetWith c))) ∧
    (4 ≤ c.memSize → (∀ k, c.codec.opc.code k ≠ 0) →
      step (State.resetWith c) = .fault (.raised (.decode (.unknownOpcode 0)) { State.resetWith c with pc := 4 }))

/-! ## Runs -/

/-- R92: a run tests `halt` first (decision D19), and otherwise is one step and the run that follows it. -/
def Obligations.RunRepeatsSteps : Prop :=
  ∀ s : State, s.config.Valid → s.poisoned = false →
    (s.halt = true → run s = .next s) ∧
    (s.halt = false → run s =
      match step s with
      | .next t => run t
      | .fault f => .fault f
      | .refused r => .refused r)

/-- R96: every run ends, in Halted or in an error. -/
def Obligations.EveryRunEnds : Prop :=
  ∀ s : State, s.config.Valid → s.poisoned = false →
    (∃ t, run s = .next t ∧ t.halt = true) ∨ ∃ e left, run s = .fault (.raised e left) ∧ left.halt = false

/-- R96: no machine completes more than `floor(MEM_SIZE / 4)` steps, whatever it is stepped through. -/
def Obligations.StepsAreBoundedByTheMemory : Prop :=
  ∀ (s t : State) (k : Nat), s.config.Valid → Sys2Proof.core.run k s = .next t →
    t.pc.toNat = s.pc.toNat + 4 * k ∧ k ≤ s.config.memSize / 4

/-! ## Loading a program, and the host's operations -/

/-- R191: a load of a program of legal length, from any state that may load one. The bounds are decision D13, what is left alone D29. -/
def Obligations.LoadInstallsTheProgram : Prop :=
  ∀ (s : State) (bytes : List Byte), s.config.Valid → s.poisoned = false → s.loaded = false →
    bytes.length % 4 = 0 → bytes.length ≤ s.config.memSize →
    ∃ t, perform (.load bytes) s = .ok (.ok, t) ∧
      (∀ k (h : k < bytes.length), t.byteAt k = bytes[k]) ∧ (∀ a, bytes.length ≤ a → t.byteAt a = s.byteAt a) ∧
      (0 < bytes.length →
        t.regions.code.start.toNat = 0 ∧ t.regions.code.last.toNat = bytes.length - 1 ∧
        t.regions.data.start.toNat = bytes.length ∧ t.regions.data.last.toNat = bytes.length ∧
        t.regions.heap.start.toNat = bytes.length ∧ t.regions.heap.last.toNat = bytes.length) ∧
      (bytes.length = 0 →
        t.regions.code.start = s.regions.code.start ∧ t.regions.code.last = s.regions.code.last ∧
        t.regions.data = s.regions.data ∧ t.regions.heap = s.regions.heap) ∧
      t.regions.code.perms = { s.regions.code.perms with write := false } ∧
      t.regions.data.perms = s.regions.data.perms ∧ t.regions.heap.perms = s.regions.heap.perms ∧
      t.regions.stack = s.regions.stack ∧ t.loaded = true ∧ t.poisoned = false ∧
      SameRegisters s t ∧ t.pc = s.pc ∧ t.halt = s.halt ∧ t.flags = s.flags ∧ t.config = s.config

/-- R192: a program whose length is not a multiple of 4 is refused with the configured error (a parameter, decision D16) and
changes nothing. -/
def Obligations.BadLengthLoadChangesNothing : Prop :=
  ∀ (s : State) (bytes : List Byte), s.poisoned = false → s.loaded = false → bytes.length % 4 ≠ 0 →
    perform (.load bytes) s = .ok (.error (.memory (s.config.loadLenErr bytes.length)), s) ∧
    (s.config.loadLenTable = [] →
      s.config.loadLenErr bytes.length = .unalignedAccess (BitVec.ofNat 32 bytes.length) 4)

/-- R193: a program longer than the memory ends in `OutOfBounds` and poisons the machine, on which only reset has a meaning
(decision D17). -/
def Obligations.FailedLoadPoisons : Prop :=
  (∀ (s : State) (bytes : List Byte), s.config.Valid → s.poisoned = false → s.loaded = false →
    bytes.length % 4 = 0 → s.config.memSize < bytes.length → bytes.length < 2 ^ 32 →
    ∃ t, perform (.load bytes) s = .ok (.error (.memory .outOfBounds), t) ∧ t.poisoned = true) ∧
  ∀ s : State, s.poisoned = true →
    step s = .refused .machinePoisoned ∧ run s = .refused .machinePoisoned ∧
    (∀ op, op ≠ .reset → perform op s = .error .machinePoisoned) ∧
    ∃ t, perform .reset s = .ok (.ok, t) ∧ t.poisoned = false

/-- R194: a second load without a reset has no meaning (decision D18). -/
def Obligations.SecondLoadIsRefused : Prop :=
  ∀ (s : State) (bytes : List Byte), s.poisoned = false → s.loaded = true →
    perform (.load bytes) s = .error .alreadyLoaded

/-- R198, R199, R200, R201: what the host's other operations return, and that those that only ask change nothing. -/
def Obligations.HostOperationsAnswer : Prop :=
  ∀ s : State, s.poisoned = false →
    (∀ r, perform (.readReg r) s = .ok (.value (s.readReg r), s)) ∧
    (s.config.Valid → ∃ v, perform .stackStart s = .ok (.value v, s) ∧ v.toNat = s.config.memSize - 1) ∧
    (∀ a w v, memRead s a w = .ok v → perform (.memRead a w) s = .ok (.value v, s)) ∧
    (∀ a w e, memRead s a w = .error e → perform (.memRead a w) s = .ok (.error (.memory e), s)) ∧
    (∀ a w v t, memWrite s a w v = .ok t → perform (.memWrite a w v) s = .ok (.ok, t)) ∧
    (∀ a w v e, memWrite s a w v = .error e → perform (.memWrite a w v) s = .ok (.error (.memory e), s)) ∧
    (∀ a w, alignCheck w a = .ok () → perform (.alignCheck w a) s = .ok (.ok, s)) ∧
    (∀ a w e, alignCheck w a = .error e → perform (.alignCheck w a) s = .ok (.error (.memory e), s)) ∧
    (∀ t, step s = .next t → perform .step s = .ok (.ok, t)) ∧
    (∀ e t, step s = .fault (.raised e t) → perform .step s = .ok (.error e, t)) ∧
    (∀ t, run s = .next t → perform .run s = .ok (.ok, t)) ∧
    (∀ e t, run s = .fault (.raised e t) → perform .run s = .ok (.error e, t))
end

