-- ==== Sys2Proof/Laws/State.lean ====
section
/-! SUPPORT. One lemma per field per update of State, so that no proof unfolds a record update. -/

namespace Sys2Proof.Machine

/-! ## Writing a register -/

@[simp] theorem readReg_writeReg_same (s : State) (r : Reg) (v : Word) : (s.writeReg r v).readReg r = v := by
  simp [State.readReg, State.writeReg, Vector.get_eq_getElem]

@[simp] theorem readReg_writeReg_other {s : State} {r q : Reg} {v : Word} (h : q ≠ r) :
    (s.writeReg r v).readReg q = s.readReg q := by
  simp only [State.readReg, State.writeReg, Vector.get_eq_getElem]
  exact Vector.getElem_set_ne _ _ (fun e => h (Fin.ext e.symm))

@[simp] theorem writeReg_pc (s : State) (r : Reg) (v : Word) : (s.writeReg r v).pc = s.pc := rfl
@[simp] theorem writeReg_halt (s : State) (r : Reg) (v : Word) : (s.writeReg r v).halt = s.halt := rfl
@[simp] theorem writeReg_flags (s : State) (r : Reg) (v : Word) : (s.writeReg r v).flags = s.flags := rfl
@[simp] theorem writeReg_mem (s : State) (r : Reg) (v : Word) : (s.writeReg r v).mem = s.mem := rfl
@[simp] theorem writeReg_regions (s : State) (r : Reg) (v : Word) : (s.writeReg r v).regions = s.regions := rfl
@[simp] theorem writeReg_poisoned (s : State) (r : Reg) (v : Word) : (s.writeReg r v).poisoned = s.poisoned := rfl
@[simp] theorem writeReg_loaded (s : State) (r : Reg) (v : Word) : (s.writeReg r v).loaded = s.loaded := rfl
@[simp] theorem writeReg_config (s : State) (r : Reg) (v : Word) : (s.writeReg r v).config = s.config := rfl

/-- How an instruction with a destination ends is a register write: the flags stay (R18). -/
@[simp] theorem result_eq_writeReg (s : State) (r : Reg) (v : Word) : s.result r v = s.writeReg r v := rfl

/-! ## Advancing -/

@[simp] theorem advance_regs (s : State) : s.advance.regs = s.regs := rfl
@[simp] theorem advance_pc (s : State) : s.advance.pc = s.pc + 4 := rfl
@[simp] theorem advance_halt (s : State) : s.advance.halt = s.halt := rfl
@[simp] theorem advance_flags (s : State) : s.advance.flags = s.flags := rfl
@[simp] theorem advance_mem (s : State) : s.advance.mem = s.mem := rfl
@[simp] theorem advance_regions (s : State) : s.advance.regions = s.regions := rfl
@[simp] theorem advance_poisoned (s : State) : s.advance.poisoned = s.poisoned := rfl
@[simp] theorem advance_loaded (s : State) : s.advance.loaded = s.loaded := rfl
@[simp] theorem advance_config (s : State) : s.advance.config = s.config := rfl
@[simp] theorem advance_readReg (s : State) (r : Reg) : s.advance.readReg r = s.readReg r := rfl
@[simp] theorem advance_byteAt (s : State) (a : Nat) : s.advance.byteAt a = s.byteAt a := rfl

/-! ## The load window and the bounds a load sets -/

@[simp] theorem setCodeWrite_regs (s : State) (b : Bool) : (s.setCodeWrite b).regs = s.regs := rfl
@[simp] theorem setCodeWrite_pc (s : State) (b : Bool) : (s.setCodeWrite b).pc = s.pc := rfl
@[simp] theorem setCodeWrite_halt (s : State) (b : Bool) : (s.setCodeWrite b).halt = s.halt := rfl
@[simp] theorem setCodeWrite_flags (s : State) (b : Bool) : (s.setCodeWrite b).flags = s.flags := rfl
@[simp] theorem setCodeWrite_mem (s : State) (b : Bool) : (s.setCodeWrite b).mem = s.mem := rfl
@[simp] theorem setCodeWrite_poisoned (s : State) (b : Bool) : (s.setCodeWrite b).poisoned = s.poisoned := rfl
@[simp] theorem setCodeWrite_loaded (s : State) (b : Bool) : (s.setCodeWrite b).loaded = s.loaded := rfl
@[simp] theorem setCodeWrite_config (s : State) (b : Bool) : (s.setCodeWrite b).config = s.config := rfl
@[simp] theorem setCodeWrite_data (s : State) (b : Bool) : (s.setCodeWrite b).regions.data = s.regions.data := rfl
@[simp] theorem setCodeWrite_heap (s : State) (b : Bool) : (s.setCodeWrite b).regions.heap = s.regions.heap := rfl
@[simp] theorem setCodeWrite_stack (s : State) (b : Bool) : (s.setCodeWrite b).regions.stack = s.regions.stack := rfl
@[simp] theorem setCodeWrite_code_start (s : State) (b : Bool) :
    (s.setCodeWrite b).regions.code.start = s.regions.code.start := rfl
@[simp] theorem setCodeWrite_code_last (s : State) (b : Bool) :
    (s.setCodeWrite b).regions.code.last = s.regions.code.last := rfl
@[simp] theorem setCodeWrite_code_perms (s : State) (b : Bool) :
    (s.setCodeWrite b).regions.code.perms = { s.regions.code.perms with write := b } := rfl

/-- A load's bounds on Code change nothing but `start` and `last` of Code. -/
theorem setCodeBounds_eq (s : State) (len : Nat) :
    s.setCodeBounds len = { s with regions.code := (s.setCodeBounds len).regions.code } ∧
      (s.setCodeBounds len).regions.code.perms = s.regions.code.perms := by
  unfold State.setCodeBounds
  split <;> exact ⟨rfl, rfl⟩

/-- A load's bounds on Data and Heap change nothing but `start` and `last` of both. -/
theorem setDataBounds_eq (s : State) (len : Nat) :
    s.setDataBounds len = { s with
      regions.data := (s.setDataBounds len).regions.data, regions.heap := (s.setDataBounds len).regions.heap } ∧
      (s.setDataBounds len).regions.data.perms = s.regions.data.perms ∧
      (s.setDataBounds len).regions.heap.perms = s.regions.heap.perms := by
  unfold State.setDataBounds
  split <;> exact ⟨rfl, rfl, rfl⟩

/-! ## Reset -/

@[simp] theorem resetWith_readReg (c : Config) (r : Reg) : (State.resetWith c).readReg r = 0 := by
  simp [State.readReg, State.resetWith, Vector.get_eq_getElem]

@[simp] theorem resetWith_byteAt (c : Config) (a : Nat) : (State.resetWith c).byteAt a = 0 := rfl
@[simp] theorem resetWith_pc (c : Config) : (State.resetWith c).pc = 0 := rfl
@[simp] theorem resetWith_halt (c : Config) : (State.resetWith c).halt = false := rfl
@[simp] theorem resetWith_flags (c : Config) : (State.resetWith c).flags = 0 := rfl
@[simp] theorem resetWith_mem (c : Config) : (State.resetWith c).mem = [] := rfl
@[simp] theorem resetWith_regions (c : Config) : (State.resetWith c).regions = .reset c := rfl
@[simp] theorem resetWith_poisoned (c : Config) : (State.resetWith c).poisoned = false := rfl
@[simp] theorem resetWith_loaded (c : Config) : (State.resetWith c).loaded = false := rfl
@[simp] theorem resetWith_config (c : Config) : (State.resetWith c).config = c := rfl

end Sys2Proof.Machine
end

