-- ==== Sys2Proof/Laws/Memory.lean ====
section
/-! SUPPORT. The laws of the linear memory: a read after a write, what a write leaves alone, and that every write keeps the
canonical form. -/

namespace Sys2Proof.Machine

/-! ## One byte -/

theorem Memory.get_insert (m : Memory) (a a' : Nat) (b : Byte) :
    (Memory.insert m a b).get a' = if a' = a then b else m.get a' := by
  induction m with
  | nil => simp [Memory.insert, Memory.get]
  | cons c rest ih =>
    obtain ⟨k, v⟩ := c
    simp only [Memory.insert]
    split
    · simp [Memory.get]
    · split
      · subst a; simp only [Memory.get]; split <;> rfl
      · simp only [Memory.get, ih]; grind

theorem Memory.get_remove (m : Memory) (a a' : Nat) :
    Memory.get (m.filter (fun c => decide (c.1 ≠ a))) a' = if a' = a then 0 else m.get a' := by
  induction m with
  | nil => simp [Memory.get]
  | cons c rest ih =>
    obtain ⟨k, v⟩ := c
    by_cases hk : k = a
    · subst hk
      rw [List.filter_cons_of_neg (by simp), ih]
      simp only [Memory.get]
      split <;> simp_all
    · rw [List.filter_cons_of_pos (by simpa using hk)]
      simp only [Memory.get, ih]
      grind

/-- A write is seen at its own address and nowhere else, in every memory. -/
theorem Memory.get_put (m : Memory) (a a' : Nat) (b : Byte) :
    (m.put a b).get a' = if a' = a then b else m.get a' := by
  unfold Memory.put
  split
  · next h => rw [Memory.get_remove, h]
  · exact Memory.get_insert m a a' b

@[simp] theorem Memory.get_put_same (m : Memory) (a : Nat) (b : Byte) : (m.put a b).get a = b := by
  simp [Memory.get_put]

theorem Memory.get_put_other {m : Memory} {a a' : Nat} {b : Byte} (h : a' ≠ a) : (m.put a b).get a' = m.get a' := by
  simp [Memory.get_put, h]

/-! ## The canonical form -/

/-- What inserting lists: the new entry and old ones. -/
theorem Memory.mem_insert {m : Memory} {a : Nat} {b : Byte} {c : Host.Cell} (h : c ∈ Memory.insert m a b) :
    c = (a, b) ∨ c ∈ m := by
  induction m with
  | nil => simpa [Memory.insert] using h
  | cons d rest ih =>
    obtain ⟨k, v⟩ := d
    simp only [Memory.insert] at h
    split at h
    · simpa using h
    · split at h <;> simp only [List.mem_cons] at h ⊢ <;> grind

theorem Memory.wf_insert {m : Memory} (hm : m.wf) {a : Nat} {b : Byte} (hb : b ≠ 0) : (Memory.insert m a b).wf := by
  refine ⟨?_, fun c hc => ?_⟩
  · have hs := hm.1
    rw [List.pairwise_map] at hs ⊢
    clear hm
    induction m with
    | nil => simp [Memory.insert]
    | cons d rest ih =>
      obtain ⟨k, v⟩ := d
      obtain ⟨hk, hr⟩ := List.pairwise_cons.1 hs
      simp only [Memory.insert]
      split
      · next ha =>
        refine List.pairwise_cons.2 ⟨fun c hc => ?_, hs⟩
        rcases List.mem_cons.1 hc with rfl | hc
        · exact ha
        · exact Nat.lt_trans ha (hk c hc)
      · split
        · next ha => exact List.pairwise_cons.2 ⟨fun c hc => ha ▸ hk c hc, hr⟩
        · refine List.pairwise_cons.2 ⟨fun c hc => ?_, ih hr⟩
          rcases Memory.mem_insert hc with rfl | hc
          · simp only; omega
          · exact hk c hc
  · rcases Memory.mem_insert hc with rfl | hc
    · exact hb
    · exact hm.2 c hc

/-- What a write lists: the byte written, if it is not 0, and old entries. -/
theorem Memory.mem_put {m : Memory} {a : Nat} {b : Byte} {c : Host.Cell} (h : c ∈ m.put a b) : c.1 = a ∨ c ∈ m := by
  unfold Memory.put at h
  split at h
  · exact .inr (List.mem_of_mem_filter h)
  · rcases Memory.mem_insert h with rfl | h
    · exact .inl rfl
    · exact .inr h

/-- Every write keeps the canonical form. -/
theorem Memory.wf_put {m : Memory} (hm : m.wf) (a : Nat) (b : Byte) : (m.put a b).wf := by
  unfold Memory.put
  split
  · exact ⟨hm.1.sublist ((List.filter_sublist).map _), fun c hc => hm.2 c (List.mem_of_mem_filter hc)⟩
  · next hb => exact Memory.wf_insert hm hb

/-! ## Several bytes -/

theorem Memory.wf_writeLE {m : Memory} (hm : m.wf) (a n v : Nat) : (m.writeLE a n v).wf := by
  induction n generalizing m a v with
  | zero => exact hm
  | succ n ih => exact ih (Memory.wf_put hm _ _) _ _

theorem Memory.mem_writeLE {m : Memory} {a n v : Nat} {c : Host.Cell} (h : c ∈ m.writeLE a n v) :
    (a ≤ c.1 ∧ c.1 < a + n) ∨ c ∈ m := by
  induction n generalizing m a v with
  | zero => exact .inr h
  | succ n ih =>
    rcases ih h with h | h
    · exact .inl ⟨by omega, by omega⟩
    · rcases Memory.mem_put h with h | h
      · exact .inl ⟨by omega, by omega⟩
      · exact .inr h

/-- A write of several bytes leaves every byte outside them alone. -/
theorem Memory.get_writeLE_outside {m : Memory} {a n v a' : Nat} (h : a' < a ∨ a + n ≤ a') :
    (m.writeLE a n v).get a' = m.get a' := by
  induction n generalizing m a v with
  | zero => rfl
  | succ n ih =>
    simp only [Memory.writeLE]
    rw [ih (by omega), Memory.get_put_other (by omega)]

/-- Byte `i` of a value written is `(v >> 8i) mod 256` (R32). -/
theorem Memory.get_writeLE_inside {m : Memory} {a n v i : Nat} (h : i < n) :
    (m.writeLE a n v).get (a + i) = BitVec.ofNat 8 (v / 256 ^ i) := by
  induction n generalizing m a v i with
  | zero => omega
  | succ n ih =>
    simp only [Memory.writeLE]
    cases i with
    | zero =>
      rw [Memory.get_writeLE_outside (by omega), Nat.add_zero, Memory.get_put_same, pow_zero, Nat.div_one]
    | succ i =>
      rw [show a + (i + 1) = a + 1 + i by omega, ih (by omega), Nat.div_div_eq_div_mul, pow_succ, Nat.mul_comm 256]

/-- A multi-byte read depends on the bytes it covers. -/
theorem Memory.readLE_congr {m m' : Memory} {a n : Nat} (h : ∀ i, i < n → m.get (a + i) = m'.get (a + i)) :
    m.readLE a n = m'.readLE a n := by
  induction n generalizing a with
  | zero => rfl
  | succ n ih =>
    have h0 := h 0 (by omega)
    simp only [Memory.readLE, Nat.add_zero] at h0 ⊢
    rw [h0, ih]
    intro i hi
    have := h (i + 1) (by omega)
    rwa [show a + (i + 1) = a + 1 + i by omega] at this

/-- The value of bytes that spell a number, least significant first. -/
theorem Memory.readLE_of_bytes {m : Memory} {a n v : Nat} (h : ∀ i, i < n → (m.get (a + i)).toNat = v / 256 ^ i % 256) :
    m.readLE a n = v % 256 ^ n := by
  induction n generalizing a v with
  | zero => simp [Memory.readLE, Nat.mod_one]
  | succ n ih =>
    have h0 := h 0 (by omega)
    simp only [Nat.add_zero, pow_zero, Nat.div_one] at h0
    rw [Memory.readLE, h0, ih (v := v / 256), pow_succ, Nat.mul_comm (256 ^ n), Nat.mod_mul]
    intro i hi
    have := h (i + 1) (by omega)
    rwa [show a + (i + 1) = a + 1 + i by omega, pow_succ, Nat.mul_comm (256 ^ i), ← Nat.div_div_eq_div_mul] at this

/-- Read after write, several bytes. -/
theorem Memory.readLE_writeLE (m : Memory) (a n v : Nat) : (m.writeLE a n v).readLE a n = v % 256 ^ n :=
  Memory.readLE_of_bytes fun i hi => by rw [Memory.get_writeLE_inside hi, BitVec.toNat_ofNat]

theorem Memory.readLE_lt (m : Memory) (a n : Nat) : m.readLE a n < 256 ^ n := by
  induction n generalizing a with
  | zero => simp [Memory.readLE]
  | succ n ih =>
    have := ih (a + 1)
    have := (m.get a).isLt
    rw [Memory.readLE, pow_succ]
    omega

end Sys2Proof.Machine
end

