-- ==== Sys2Proof/Laws/Checker.lean ====
section
/-! SUPPORT. What the memory checker can answer, said once for each of its operations (`20_memory.md` R38 to R45). -/

namespace Sys2Proof.Machine

/-- The checks pass exactly when the access fits, its first byte is owned, and the owner grants the permission. -/
theorem checkAccess_ok_iff {s : State} {p : Permission} {a : Word} {n : Nat} :
    checkAccess s p a n = .ok () ↔
      a.toNat + n ≤ s.config.memSize ∧ ∃ k, s.regions.owner a = some k ∧ (s.regions.region k).perms.allows p = true := by
  unfold checkAccess
  split
  · next h => simp only [reduceCtorEq, false_iff, not_and]; omega
  · next h =>
    have h' : a.toNat + n ≤ s.config.memSize := by omega
    split <;> simp_all

/-- The one error of an access that fails, by the first check that fails. -/
theorem checkAccess_error {s : State} {p : Permission} {a : Word} {n : Nat} {e : MemoryError}
    (h : checkAccess s p a n = .error e) :
    (e = .outOfBounds ∧ s.config.memSize < a.toNat + n) ∨
    (e = .invalidAddress ∧ s.regions.owner a = none) ∨
    (e = .permissionDenied p a ∧ ∃ k, s.regions.owner a = some k ∧ (s.regions.region k).perms.allows p = false) := by
  unfold checkAccess at h
  split at h
  · next hb => cases h; exact .inl ⟨rfl, hb⟩
  · split at h
    · next ho => cases h; exact .inr (.inl ⟨rfl, ho⟩)
    · next k ho =>
      split at h
      · cases h
      · next hp => cases h; exact .inr (.inr ⟨rfl, k, ho, by simpa using hp⟩)

/-- The capacity check comes first (R38). -/
theorem checkAccess_outOfBounds {s : State} {p : Permission} {a : Word} {n : Nat} (h : s.config.memSize < a.toNat + n) :
    checkAccess s p a n = .error .outOfBounds := by
  simp [checkAccess, h]

/-- The region comes second (R34). -/
theorem checkAccess_unowned {s : State} {p : Permission} {a : Word} {n : Nat} (h : a.toNat + n ≤ s.config.memSize)
    (ho : s.regions.owner a = none) : checkAccess s p a n = .error .invalidAddress := by
  simp [checkAccess, Nat.not_lt.2 h, ho]

/-- The permission comes last (R39). -/
theorem checkAccess_denied {s : State} {p : Permission} {a : Word} {n : Nat} {k : RegionKind}
    (h : a.toNat + n ≤ s.config.memSize) (ho : s.regions.owner a = some k)
    (hp : (s.regions.region k).perms.allows p = false) : checkAccess s p a n = .error (.permissionDenied p a) := by
  simp [checkAccess, Nat.not_lt.2 h, ho, hp]

/-- The checks look at the region descriptors and the configuration alone. -/
theorem checkAccess_congr {s t : State} (hr : t.regions = s.regions) (hc : t.config = s.config) (p : Permission) (a : Word)
    (n : Nat) : checkAccess t p a n = checkAccess s p a n := by
  simp [checkAccess, hr, hc]

theorem memRead_ok_iff {s : State} {a : Word} {w : Width} {v : Word} :
    memRead s a w = .ok v ↔
      checkAccess s .read a w.bytes = .ok () ∧ v = BitVec.ofNat 32 (s.mem.readLE a.toNat w.bytes) := by
  cases h : checkAccess s .read a w.bytes <;> simp [memRead, h, eq_comm]

theorem memRead_error_iff {s : State} {a : Word} {w : Width} {e : MemoryError} :
    memRead s a w = .error e ↔ checkAccess s .read a w.bytes = .error e := by
  cases h : checkAccess s .read a w.bytes <;> simp [memRead, h]

/-- A word read has the value of its bytes: nothing is cut off. -/
theorem toNat_ofNat_readLE (m : Memory) (a : Nat) (w : Width) :
    (BitVec.ofNat 32 (m.readLE a w.bytes)).toNat = m.readLE a w.bytes := by
  rw [BitVec.toNat_ofNat]
  refine Nat.mod_eq_of_lt (Nat.lt_of_lt_of_le (Memory.readLE_lt m a w.bytes) ?_)
  cases w <;> decide

theorem memWrite_ok_iff {s t : State} {a : Word} {w : Width} {v : Word} :
    memWrite s a w v = .ok t ↔
      checkAccess s .write a w.bytes = .ok () ∧ t = { s with mem := s.mem.writeLE a.toNat w.bytes v.toNat } := by
  cases h : checkAccess s .write a w.bytes <;> simp [memWrite, h, eq_comm]

theorem memWrite_error_iff {s : State} {a : Word} {w : Width} {v : Word} {e : MemoryError} :
    memWrite s a w v = .error e ↔ checkAccess s .write a w.bytes = .error e := by
  cases h : checkAccess s .write a w.bytes <;> simp [memWrite, h]

/-- An unaligned word is refused before anything else is judged (R45, R133). -/
theorem loadWord_unaligned {s : State} {a : Word} (h : a.toNat % 4 ≠ 0) : loadWord s a = .error (.unalignedAccess a 4) := by
  simp [loadWord, alignCheck, Width.bytes, h]

theorem loadWord_aligned {s : State} {a : Word} (h : a.toNat % 4 = 0) : loadWord s a = memRead s a .word := by
  simp [loadWord, alignCheck, Width.bytes, h]

theorem loadWord_ok_iff {s : State} {a v : Word} :
    loadWord s a = .ok v ↔ a.toNat % 4 = 0 ∧ memRead s a .word = .ok v := by
  by_cases h : a.toNat % 4 = 0
  · simp [loadWord_aligned h, h]
  · simp [loadWord_unaligned h, h]

theorem storeWord_unaligned {s : State} {a v : Word} (h : a.toNat % 4 ≠ 0) :
    storeWord s a v = .error (.unalignedAccess a 4) := by
  simp [storeWord, alignCheck, Width.bytes, h]

theorem storeWord_aligned {s : State} {a v : Word} (h : a.toNat % 4 = 0) : storeWord s a v = memWrite s a .word v := by
  simp [storeWord, alignCheck, Width.bytes, h]

theorem storeWord_ok_iff {s t : State} {a v : Word} :
    storeWord s a v = .ok t ↔ a.toNat % 4 = 0 ∧ memWrite s a .word v = .ok t := by
  by_cases h : a.toNat % 4 = 0
  · simp [storeWord_aligned h, h]
  · simp [storeWord_unaligned h, h]

end Sys2Proof.Machine
end

