-- ==== Sys2Proof/Laws/Codec.lean ====
section
/-! SUPPORT. The small lemmas of the decoder and the encoder: the opcode lookup, the legal layouts, and what unpacking and packing a
layout give, field by field (`30_encoding.md` R61 to R73). -/

namespace Sys2Proof

open Machine

theorem Mnemonic.mem_all (k : Mnemonic) : k ∈ Mnemonic.all := by
  cases k <;> decide

/-- With an injective map the lookup of a mnemonic's opcode gives that mnemonic. -/
theorem OpcodeMap.lookup_code {m : OpcodeMap} (hm : m.Injective) (k : Mnemonic) : m.lookup (m.code k) = some k := by
  have hinj := List.inj_on_of_nodup_map hm
  unfold OpcodeMap.lookup
  cases hf : Mnemonic.all.find? (fun j => m.code j == m.code k) with
  | none => exact absurd (List.find?_eq_none.1 hf k (Mnemonic.mem_all k)) (by simp)
  | some j =>
    have hj : m.code j = m.code k := by simpa using List.find?_some hf
    rw [hinj (Mnemonic.mem_all j) (Mnemonic.mem_all k) hj]

/-- A mnemonic the lookup gives has that opcode. -/
theorem OpcodeMap.code_of_lookup {m : OpcodeMap} {op : Byte} {k : Mnemonic} (h : m.lookup op = some k) : m.code k = op := by
  simpa using List.find?_some h

/-- The lookup fails exactly on the opcodes no mnemonic has. -/
theorem OpcodeMap.lookup_eq_none {m : OpcodeMap} {op : Byte} : m.lookup op = none ↔ ∀ k, m.code k ≠ op := by
  simp [OpcodeMap.lookup, Mnemonic.mem_all]

theorem decode_of_code {c : Codec} (hm : c.opc.Injective) {w : Word} {k : Mnemonic} (h : opcodeField w = c.opc.code k) :
    decode c w = .ok (decodeAs c k w) := by
  simp [decode, h, OpcodeMap.lookup_code hm]

theorem decode_ok_iff {c : Codec} {w : Word} {i : Instr} :
    decode c w = .ok i ↔ ∃ k, c.opc.lookup (opcodeField w) = some k ∧ i = decodeAs c k w := by
  cases h : c.opc.lookup (opcodeField w) <;> simp [decode, h, eq_comm]

@[simp] theorem Instr.mnemonic_ofOperands (ops : List (Role × Operand)) (k : Mnemonic) : (Instr.ofOperands ops k).mnemonic = k := by
  cases k <;> rfl

/-- Well-formedness is the range of the one immediate an instruction can hold. -/
theorem wellFormed_iff {i : Instr} : WellFormed i ↔ ∀ n v, i.immediate = some (n, v) → ImmFits n v := by
  unfold WellFormed wellFormed
  cases h : i.immediate with
  | none => simp
  | some p => obtain ⟨n, v⟩ := p; simp

/-! ## Fields as numbers -/

theorem opcodeField_toNat (w : Word) : (opcodeField w).toNat = bitSlice w 7 0 := by
  simp [opcodeField, bitSlice]

theorem regdec_eq_clamped (b : BitVec 5) : regdec b = clamped b.toNat := rfl

/-- The top bit of an N-bit field, as a comparison. -/
theorem getLsbD_top {n : Nat} (b : BitVec n) : b.getLsbD (n - 1) = decide (2 ^ (n - 1) ≤ b.toNat) := by
  rw [← BitVec.msb_eq_decide, BitVec.msb_eq_getLsbD_last]

theorem fromBits_eq_signedField {n : Nat} (b : BitVec n) : fromBits n b = signedField n b.toNat := by
  simp [fromBits, signedField, getLsbD_top]

/-! ## Legal layouts -/

theorem LayoutTable.Valid.perm {t : LayoutTable} (h : t.Valid) (k : Mnemonic) : (t.layout k).Perm (defaultLayouts.layout k) :=
  h k (Mnemonic.mem_all k)

/-- A legal layout has the fields R64 gives the mnemonic, in some order. -/
theorem LayoutTable.Valid.mem_iff {t : LayoutTable} (h : t.Valid) {k : Mnemonic} {f : Field} :
    f ∈ t.layout k ↔ f ∈ defaultLayouts.layout k :=
  (h.perm k).mem_iff

theorem LayoutTable.Valid.nodup {t : LayoutTable} (h : t.Valid) (k : Mnemonic) : ((t.layout k).map Field.role).Nodup :=
  ((h.perm k).map _).nodup_iff.2 (by cases k <;> decide)

theorem LayoutTable.Valid.widths_eq {t : LayoutTable} (h : t.Valid) (k : Mnemonic) :
    widths (t.layout k) = widths (defaultLayouts.layout k) :=
  ((h.perm k).map _).sum_eq

theorem LayoutTable.Valid.fits {t : LayoutTable} (h : t.Valid) (k : Mnemonic) : 8 + widths (t.layout k) ≤ 32 := by
  rw [h.widths_eq]
  cases k <;> decide

/-! ## Unpacking -/

/-- How a lookup by role compares: `simp` then decides it for any two named roles. -/
@[simp] theorem Role.beq_eq (a b : Role) : (a == b) = decide (a = b) := by
  cases a <;> cases b <;> rfl

theorem role_ne {g f : Field} {l : List Field} (hg : g.role ∉ l.map Field.role) (hf : f ∈ l) : g.role ≠ f.role :=
  fun e => hg (e ▸ List.mem_map_of_mem hf)

/-- What unpacking gives the role of a field: the operand read from the bits where the field stands. -/
theorem lookup_unpackFields (w : Word) {l : List Field} (o : Nat) (hn : (l.map Field.role).Nodup) {f : Field} (hf : f ∈ l) :
    (unpackFields w o l).lookup f.role = some (f.kind.read (w.toNat / 2 ^ fieldOffset o l f.role % 2 ^ f.kind.width)) := by
  induction l generalizing o with
  | nil => cases hf
  | cons g l ih =>
    obtain ⟨hg, hn⟩ := List.nodup_cons.1 hn
    simp only [unpackFields, fieldOffset]
    rcases List.mem_cons.1 hf with rfl | hf
    · simp [extract]
    · have hne := role_ne hg hf
      rw [List.lookup_cons, if_neg hne, show (f.role == g.role) = false from beq_false_of_ne hne.symm]
      exact ih _ hn hf

/-- The register decode gives a role: its field, clamped. -/
theorem regOperand_unpack {c : Codec} (hv : c.layouts.Valid) {k : Mnemonic} {r : Role} (w : Word)
    (hr : ⟨r, .register⟩ ∈ defaultLayouts.layout k) :
    regOperand (unpackFields w 8 (c.layouts.layout k)) r = clamped (fieldAt c k r 5 w) := by
  have h := lookup_unpackFields w 8 (hv.nodup k) (hv.mem_iff.2 hr)
  simp only [FieldKind.read, FieldKind.width] at h
  simp only [regOperand, h, regdec_eq_clamped, BitVec.toNat_ofNat, Nat.mod_mod]
  rfl

/-- The immediate decode gives: its field, sign-reconstructed. -/
theorem immOperand_unpack {c : Codec} (hv : c.layouts.Valid) {k : Mnemonic} {n : Nat} (w : Word)
    (hr : ⟨.imm, .immediate n⟩ ∈ defaultLayouts.layout k) :
    immOperand (unpackFields w 8 (c.layouts.layout k)) = signedField n (fieldAt c k .imm n w) := by
  have h := lookup_unpackFields w 8 (hv.nodup k) (hv.mem_iff.2 hr)
  simp only [FieldKind.read, FieldKind.width] at h
  simp only [immOperand, h, fromBits_eq_signedField, BitVec.toNat_ofNat, Nat.mod_mod]
  rfl

/-- Everything decode can give under legal layouts: the instruction of the mnemonic, each operand read where its field stands. -/
theorem decodeAs_eq {c : Codec} (hv : c.layouts.Valid) (k : Mnemonic) (w : Word) :
    let reg := fun r => clamped (fieldAt c k r 5 w)
    let imm := fun n => signedField n (fieldAt c k .imm n w)
    decodeAs c k w = match k with
      | .add => .add (reg .rd) (reg .rs1) (reg .rs2)
      | .sub => .sub (reg .rd) (reg .rs1) (reg .rs2)
      | .mul => .mul (reg .rd) (reg .rs1) (reg .rs2)
      | .and => .and (reg .rd) (reg .rs1) (reg .rs2)
      | .or => .or (reg .rd) (reg .rs1) (reg .rs2)
      | .xor => .xor (reg .rd) (reg .rs1) (reg .rs2)
      | .shl => .shl (reg .rd) (reg .rs1) (reg .rs2)
      | .shr => .shr (reg .rd) (reg .rs1) (reg .rs2)
      | .shrA => .shrA (reg .rd) (reg .rs1) (reg .rs2)
      | .addI => .addI (reg .rd) (reg .rs) (imm 14)
      | .lui => .lui (reg .rd) (imm 19)
      | .lw => .lw (reg .rd) (reg .rs) (imm 14)
      | .sw => .sw (reg .rd) (reg .rs) (imm 14)
      | .syscall => .syscall
      | .li => .li (reg .rd) (imm 19) := by
  have hr := fun r => regOperand_unpack (k := k) (r := r) hv w
  have hi := fun n => immOperand_unpack (k := k) (n := n) hv w
  cases k <;> simp only [decodeAs, Instr.ofOperands]
  case lui | li => rw [hr .rd (by decide), hi 19 (by decide)]
  case addI | lw | sw => rw [hr .rd (by decide), hr .rs (by decide), hi 14 (by decide)]
  all_goals rw [hr .rd (by decide), hr .rs1 (by decide), hr .rs2 (by decide)]

/-! ## Packing -/

theorem Field.bits_lt (f : Field) (ops : List (Role × Operand)) : f.bits ops < 2 ^ f.kind.width := by
  unfold Field.bits
  split
  · next x _ =>
    cases x with
    | reg r => exact Nat.mod_lt _ (by positivity)
    | imm v => exact (toBits _ v).isLt
  · positivity

/-- A register operand in a register field is its ordinal (R66). -/
@[simp] theorem Operand.bits_reg (r : Reg) : (Operand.reg r).bits 5 = r.val := by
  simp only [Operand.bits, regenc, BitVec.toNat_ofNat]
  omega

/-- An immediate operand in its field is its packed bits (R70). -/
@[simp] theorem Operand.bits_imm (v : Int) (n : Nat) : (Operand.imm v).bits n = (toBits n v).toNat := rfl

theorem two_pow_or {m a : Nat} (b : Nat) (h : a < 2 ^ m) : a ||| 2 ^ m * b = a + 2 ^ m * b := by
  rw [Nat.or_comm, ← Nat.two_pow_add_eq_or_of_lt h, Nat.add_comm]

/-- Packing from bit `o` is packing from bit 0, shifted. -/
theorem packFields_shift (ops : List (Role × Operand)) (o : Nat) (l : List Field) :
    packFields ops o l = 2 ^ o * packFields ops 0 l := by
  induction l generalizing o with
  | nil => simp [packFields]
  | cons f l ih =>
    have hb := f.bits_lt ops
    simp only [packFields]
    rw [ih (o + f.kind.width), ih (0 + f.kind.width), pow_zero, Nat.mul_one, Nat.zero_add, two_pow_or _ hb,
      two_pow_or _ (by rw [pow_add, Nat.mul_comm]; exact Nat.mul_lt_mul_of_pos_left hb (by positivity))]
    ring

/-- The fields as a sum: no two overlap. -/
theorem packFields_cons (ops : List (Role × Operand)) (o : Nat) (f : Field) (l : List Field) :
    packFields ops o (f :: l) = f.bits ops * 2 ^ o + packFields ops (o + f.kind.width) l := by
  have hb := f.bits_lt ops
  simp only [packFields]
  rw [packFields_shift ops (o + f.kind.width) l,
    two_pow_or _ (by rw [pow_add, Nat.mul_comm]; exact Nat.mul_lt_mul_of_pos_left hb (by positivity))]

theorem packFields_lt (ops : List (Role × Operand)) (o : Nat) (l : List Field) : packFields ops o l < 2 ^ (o + widths l) := by
  induction l generalizing o with
  | nil => simp [packFields]
  | cons f l ih =>
    have hb := f.bits_lt ops
    rw [packFields_shift, packFields_cons, pow_add]
    refine Nat.mul_lt_mul_of_pos_left ?_ (by positivity)
    have h0 := ih 0
    rw [packFields_shift, pow_zero, Nat.mul_one, Nat.zero_add] at *
    have hw : widths (f :: l) = f.kind.width + widths l := by simp [widths]
    rw [hw, pow_add]
    nlinarith [Nat.one_le_two_pow (n := f.kind.width)]

/-- Packing then looking where a field stands gives the field's bits. -/
theorem packFields_at (ops : List (Role × Operand)) {l : List Field} (o : Nat) (hn : (l.map Field.role).Nodup) {f : Field}
    (hf : f ∈ l) : packFields ops o l / 2 ^ fieldOffset o l f.role % 2 ^ f.kind.width = f.bits ops ∧ o ≤ fieldOffset o l f.role := by
  induction l generalizing o with
  | nil => cases hf
  | cons g l ih =>
    obtain ⟨hg, hn⟩ := List.nodup_cons.1 hn
    have hb := g.bits_lt ops
    rw [packFields_cons]
    simp only [fieldOffset]
    rcases List.mem_cons.1 hf with rfl | hf
    · rw [if_pos rfl, packFields_shift, pow_add, Nat.mul_assoc, Nat.mul_comm (f.bits ops), ← Nat.mul_add,
        Nat.mul_div_cancel_left _ (by positivity), Nat.add_mul_mod_self_left, Nat.mod_eq_of_lt hb]
      exact ⟨rfl, le_refl _⟩
    · have hne := role_ne hg hf
      rw [if_neg hne]
      obtain ⟨h1, h2⟩ := ih (o + g.kind.width) hn hf
      refine ⟨?_, by omega⟩
      rw [← h1]
      obtain ⟨d, hd⟩ := Nat.exists_eq_add_of_le h2
      have hlt : g.bits ops * 2 ^ o < 2 ^ (o + g.kind.width) := by
        rw [pow_add, Nat.mul_comm]; exact Nat.mul_lt_mul_of_pos_left hb (by positivity)
      rw [hd, pow_add _ _ d, ← Nat.div_div_eq_div_mul, ← Nat.div_div_eq_div_mul, packFields_shift,
        Nat.add_mul_div_left _ _ (by positivity), Nat.div_eq_of_lt hlt, Nat.zero_add, Nat.mul_div_cancel_left _ (by positivity)]

/-- A field lies between the first bit and the last bit its layout takes. -/
theorem fieldOffset_bounds {l : List Field} (o : Nat) (hn : (l.map Field.role).Nodup) {f : Field} (hf : f ∈ l) :
    o ≤ fieldOffset o l f.role ∧ fieldOffset o l f.role + f.kind.width ≤ o + widths l := by
  induction l generalizing o with
  | nil => cases hf
  | cons g l ih =>
    obtain ⟨hg, hn⟩ := List.nodup_cons.1 hn
    have hw : widths (g :: l) = g.kind.width + widths l := by simp [widths]
    simp only [fieldOffset, hw]
    rcases List.mem_cons.1 hf with rfl | hf
    · rw [if_pos rfl]; omega
    · rw [if_neg (role_ne hg hf)]
      have := ih (o + g.kind.width) hn hf
      omega

/-- Packed fields as the sum of each field's bits at the field's place. -/
theorem packFields_sum (ops : List (Role × Operand)) {l : List Field} (o : Nat) (hn : (l.map Field.role).Nodup) :
    packFields ops o l = (l.map fun f => f.bits ops * 2 ^ fieldOffset o l f.role).sum := by
  induction l generalizing o with
  | nil => rfl
  | cons g l ih =>
    obtain ⟨hg, hn⟩ := List.nodup_cons.1 hn
    rw [packFields_cons, ih _ hn, List.map_cons, List.sum_cons]
    congr 1
    · simp [fieldOffset]
    · congr 1
      refine List.map_congr_left fun f hf => ?_
      rw [fieldOffset, if_neg (role_ne hg hf)]

/-- Two numbers that agree below bit `o`, in every field of a layout from bit `o` up, and above the layout, are equal. -/
theorem fields_ext {v w : Nat} {l : List Field} (o : Nat) (hn : (l.map Field.role).Nodup) (hlow : v % 2 ^ o = w % 2 ^ o)
    (hf : ∀ f ∈ l, v / 2 ^ fieldOffset o l f.role % 2 ^ f.kind.width = w / 2 ^ fieldOffset o l f.role % 2 ^ f.kind.width)
    (hhigh : v / 2 ^ (o + widths l) = w / 2 ^ (o + widths l)) : v = w := by
  induction l generalizing o with
  | nil =>
    simp only [widths, List.map_nil, List.sum_nil, Nat.add_zero] at hhigh
    rw [← Nat.div_add_mod v (2 ^ o), ← Nat.div_add_mod w (2 ^ o), hlow, hhigh]
  | cons g l ih =>
    obtain ⟨hg, hn⟩ := List.nodup_cons.1 hn
    have hw : widths (g :: l) = g.kind.width + widths l := by simp [widths]
    rw [hw, ← Nat.add_assoc] at hhigh
    refine ih (o + g.kind.width) hn ?_ (fun f h => ?_) hhigh
    · have h := hf g (List.mem_cons_self ..)
      simp only [fieldOffset, if_true] at h
      rw [pow_add, Nat.mod_mul, Nat.mod_mul, hlow, h]
    · have := hf f (List.mem_cons_of_mem _ h)
      rwa [fieldOffset, if_neg (role_ne hg h)] at this

/-- An encoded word as a number: the opcode and, above it, the packed fields. -/
theorem encode_toNat {c : Codec} (hv : c.layouts.Valid) (i : Instr) :
    (encode c i).toNat = (c.opc.code i.mnemonic).toNat + packFields i.operands 8 (c.layouts.layout i.mnemonic) := by
  have h1 := packFields_lt i.operands 8 (c.layouts.layout i.mnemonic)
  have h2 : 2 ^ (8 + widths (c.layouts.layout i.mnemonic)) ≤ 2 ^ 32 := Nat.pow_le_pow_right (by decide) (hv.fits _)
  have h3 := (c.opc.code i.mnemonic).isLt
  rw [packFields_shift] at h1
  rw [encode, packFields_shift, BitVec.toNat_ofNat, two_pow_or _ h3, Nat.mod_eq_of_lt]
  generalize packFields i.operands 0 (c.layouts.layout i.mnemonic) = x at *
  have : 2 ^ 8 * (x + 1) ≤ 2 ^ (8 + widths (c.layouts.layout i.mnemonic)) := by
    rw [pow_add] at h1 ⊢
    exact Nat.mul_le_mul_left _ (Nat.lt_of_mul_lt_mul_left h1)
  omega

/-- The same as a sum over the fields R64 gives the mnemonic, each at its place. -/
theorem encode_toNat_sum {c : Codec} (hv : c.layouts.Valid) (i : Instr) :
    (encode c i).toNat = (c.opc.code i.mnemonic).toNat +
      ((defaultLayouts.layout i.mnemonic).map fun f => f.bits i.operands * 2 ^ placeOf c i.mnemonic f.role).sum := by
  rw [encode_toNat hv, packFields_sum _ _ (hv.nodup _)]
  exact congrArg _ (((hv.perm _).map _).sum_eq)

/-- The opcode of an encoded word, under any layouts. -/
theorem opcodeField_encode (c : Codec) (i : Instr) : opcodeField (encode c i) = c.opc.code i.mnemonic := by
  apply BitVec.eq_of_toNat_eq
  have h := (c.opc.code i.mnemonic).isLt
  rw [opcodeField_toNat, encode, packFields_shift, two_pow_or _ h]
  simp only [bitSlice, BitVec.toNat_ofNat]
  omega

/-- Where a field stands, an encoded word holds the bits of its operand. -/
theorem fieldAt_encode {c : Codec} (hv : c.layouts.Valid) (i : Instr) {f : Field} (hf : f ∈ defaultLayouts.layout i.mnemonic) :
    fieldAt c i.mnemonic f.role f.kind.width (encode c i) = f.bits i.operands := by
  obtain ⟨h1, h2⟩ := packFields_at i.operands 8 (hv.nodup i.mnemonic) (hv.mem_iff.2 hf)
  rw [fieldAt, encode_toNat hv, placeOf]
  rw [← h1]
  obtain ⟨d, hd⟩ := Nat.exists_eq_add_of_le h2
  rw [hd, pow_add, ← Nat.div_div_eq_div_mul, ← Nat.div_div_eq_div_mul, packFields_shift,
    Nat.add_mul_div_left _ _ (by positivity), Nat.div_eq_of_lt (c.opc.code i.mnemonic).isLt, Nat.zero_add,
    Nat.mul_div_cancel_left _ (by positivity)]

end Sys2Proof
end

