-- ==== Sys2Proof/Laws/PerInstr.lean ====
section
/-! SUPPORT. A statement about each instruction as syntax: the low byte of its word is its mnemonic's opcode (`30_encoding.md` R61, R73). -/

namespace Sys2Proof.Laws.EncodedOpcode

/-- The encoded word carries the instruction's opcode in bits 7:0, under every opcode map and every table of layouts. -/
def Statement (i : Instr) : Prop := ∀ c : Codec, opcodeField (encode c i) = c.opc.code i.mnemonic

theorem add (rd rs1 rs2 : Reg) : Statement (.add rd rs1 rs2) := fun c => opcodeField_encode c _
theorem sub (rd rs1 rs2 : Reg) : Statement (.sub rd rs1 rs2) := fun c => opcodeField_encode c _
theorem mul (rd rs1 rs2 : Reg) : Statement (.mul rd rs1 rs2) := fun c => opcodeField_encode c _
theorem and (rd rs1 rs2 : Reg) : Statement (.and rd rs1 rs2) := fun c => opcodeField_encode c _
theorem or (rd rs1 rs2 : Reg) : Statement (.or rd rs1 rs2) := fun c => opcodeField_encode c _
theorem xor (rd rs1 rs2 : Reg) : Statement (.xor rd rs1 rs2) := fun c => opcodeField_encode c _
theorem shl (rd rs1 rs2 : Reg) : Statement (.shl rd rs1 rs2) := fun c => opcodeField_encode c _
theorem shr (rd rs1 rs2 : Reg) : Statement (.shr rd rs1 rs2) := fun c => opcodeField_encode c _
theorem shrA (rd rs1 rs2 : Reg) : Statement (.shrA rd rs1 rs2) := fun c => opcodeField_encode c _
theorem addI (rd rs : Reg) (imm : Int) : Statement (.addI rd rs imm) := fun c => opcodeField_encode c _
theorem lui (rd : Reg) (imm : Int) : Statement (.lui rd imm) := fun c => opcodeField_encode c _
theorem lw (rd rs : Reg) (imm : Int) : Statement (.lw rd rs imm) := fun c => opcodeField_encode c _
theorem sw (rd rs : Reg) (imm : Int) : Statement (.sw rd rs imm) := fun c => opcodeField_encode c _
theorem syscall : Statement .syscall := fun c => opcodeField_encode c _
theorem li (rd : Reg) (imm : Int) : Statement (.li rd imm) := fun c => opcodeField_encode c _

end Sys2Proof.Laws.EncodedOpcode
end

