-- ==== Sys2Proof/Laws/Step.lean ====
section
/-! SUPPORT. What an executed instruction and a completed step can do, said once. -/

namespace Sys2Proof.Machine

/-- Every instruction that completes writes one register, sets `halt`, or stores one word (R93). -/
theorem exec_next_cases {i : Instr} {s t : State} (h : exec i s = .next t) :
    (∃ rd v, t = s.writeReg rd v ∧ i ≠ .syscall ∧ ∀ b r imm, i ≠ .sw b r imm) ∨
    (i = .syscall ∧ t = { s with halt := true }) ∨
    (∃ rd rs imm, i = .sw rd rs imm ∧ storeWord s (effectiveAddress s rd imm) (s.readReg rs) = .ok t) := by
  cases i with
  | lw rd rs imm =>
    simp only [exec, execLw] at h
    split at h
    · cases h; exact .inl ⟨_, _, rfl, nofun, nofun⟩
    · cases h
  | sw rd rs imm =>
    simp only [exec, execSw] at h
    split at h
    · next u hu =>
      cases h
      obtain ⟨-, hw⟩ := storeWord_ok_iff.1 hu
      obtain ⟨-, rfl⟩ := memWrite_ok_iff.1 hw
      exact .inr (.inr ⟨rd, rs, imm, rfl, hu⟩)
    · cases h
  | syscall => cases h; exact .inr (.inl ⟨rfl, rfl⟩)
  | add | sub | mul | and | or | xor | shl | shr | shrA | addI | lui | li =>
    cases h; exact .inl ⟨_, _, rfl, nofun, nofun⟩

/-- A step that completes fetched a word, decoded it and executed the instruction (R91). -/
theorem step_next_cases {s t : State} (h : step s = .next t) :
    s.poisoned = false ∧ ∃ w i, fetch s = .ok w ∧ decode s.config.codec w = .ok i ∧ exec i s.advance = .next t := by
  unfold step at h
  split at h
  · cases h
  · next hp =>
    refine ⟨by simpa using hp, ?_⟩
    split at h
    · cases h
    · next w hw =>
      split at h
      · cases h
      · next i hi => exact ⟨w, i, hw, hi, h⟩

/-- A fetched word lies inside the memory (R38). -/
theorem fetch_inside {s : State} {w : Word} (h : fetch s = .ok w) : s.pc.toNat + 4 ≤ s.config.memSize :=
  (checkAccess_ok_iff.1 (memRead_ok_iff.1 h).1).1

end Sys2Proof.Machine
end

