-- ==== Sys2Proof/Tests/Slice0.lean ====
section
/-! SUPPORT. Tests against `spec/95_test_vectors.md` and the worked encodings of `spec/30_encoding.md` section 9 (the vector's name stands
with each), and, for each statement of Obligations.lean with hypotheses, a theorem showing that a concrete case meets them. -/

namespace Sys2Proof.Tests

open Sys2Proof.Machine

/-! ## Helpers -/

/-- The standard machine of `95_test_vectors.md`, freshly reset, with some registers preset. -/
def preset (rs : List (Reg × Word)) : State := rs.foldl (fun s p => s.writeReg p.1 p.2) State.reset

/-- The state an operation leaves, `s` if it is refused. -/
def after (op : Operation) (s : State) : State :=
  match perform op s with
  | .ok (_, t) => t
  | .error _ => s

/-- What an operation returns. -/
def reply (op : Operation) (s : State) : Option Reply :=
  match perform op s with
  | .ok (r, _) => some r
  | .error _ => none

/-- Why an operation is refused. -/
def refusal (op : Operation) (s : State) : Option Refusal :=
  match perform op s with
  | .ok _ => none
  | .error r => some r

/-- A machine with the one-word program `w` loaded and some registers preset (the conventions of V-LS). -/
def holding (w : Nat) (rs : List (Reg × Word)) : State := after (.load (leBytes 4 w)) (preset rs)

/-- What one executed instruction leaves, where it completes. -/
def stateOf : Host.Outcome State Fault Refusal → Option State
  | .next t => some t
  | .fault _ => none
  | .refused _ => none

/-- The register an executed instruction leaves. -/
def regAfter (o : Host.Outcome State Fault Refusal) (r : Reg) : Option Word := (stateOf o).map (·.readReg r)

/-- A machine with a memory of this size. -/
def sized (mem stack : Nat) : State := State.resetWith { standardConfig with memSize := mem, stackSize := stack }

/-- The codec whose Add names its sources before its destination, the alternative D3 sets aside; all else as in R64. -/
def sourcesFirst : Codec :=
  { defaultCodec with layouts.add := [⟨.rs1, .register⟩, ⟨.rs2, .register⟩, ⟨.rd, .register⟩] }

/-! ## Well-formedness: each check refuses an ill-formed term -/

theorem test_wf_addI_above : wellFormed (.addI 5 5 8192) = false := by decide
theorem test_wf_addI_below : wellFormed (.addI 5 5 (-8193)) = false := by decide
theorem test_wf_lw : wellFormed (.lw 6 2 8192) = false := by decide
theorem test_wf_sw : wellFormed (.sw 2 5 (-8193)) = false := by decide
theorem test_wf_lui : wellFormed (.lui 5 262144) = false := by decide
theorem test_wf_li : wellFormed (.li 5 (-262145)) = false := by decide
theorem test_wf_bounds : wellFormed (.addI 5 5 8191) = true ∧ wellFormed (.li 5 (-262144)) = true := by decide

/-! ## Decoding, every constructor by a word written out from its encoding (R62, R64, R76) -/

theorem test_decode_add : decode defaultCodec 0b000000000_00111_00110_00101_00000001 = .ok (.add regT0 regT1 regT2) := by decide
theorem test_decode_sub : decode defaultCodec 0b000000000_00111_00110_00101_00000010 = .ok (.sub regT0 regT1 regT2) := by decide
theorem test_decode_mul : decode defaultCodec 0b000000000_00111_00110_00101_00000011 = .ok (.mul regT0 regT1 regT2) := by decide
theorem test_decode_and : decode defaultCodec 0b000000000_00111_00110_00101_00000100 = .ok (.and regT0 regT1 regT2) := by decide
theorem test_decode_or : decode defaultCodec 0b000000000_00111_00110_00101_00000101 = .ok (.or regT0 regT1 regT2) := by decide
theorem test_decode_xor : decode defaultCodec 0b000000000_00111_00110_00101_00000110 = .ok (.xor regT0 regT1 regT2) := by decide
theorem test_decode_shl : decode defaultCodec 0b000000000_00111_00110_00101_00000111 = .ok (.shl regT0 regT1 regT2) := by decide
theorem test_decode_shr : decode defaultCodec 0b000000000_00111_00110_00101_00001000 = .ok (.shr regT0 regT1 regT2) := by decide
theorem test_decode_shrA : decode defaultCodec 0b000000000_00111_00110_00101_00001001 = .ok (.shrA regT0 regT1 regT2) := by decide
theorem test_decode_addI : decode defaultCodec 0b00000000000101_00000_00111_00001010 = .ok (.addI regT2 regZero 5) := by decide
theorem test_decode_lui : decode defaultCodec 0b1111111111111111111_00101_00001011 = .ok (.lui regT0 (-1)) := by decide
theorem test_decode_lw : decode defaultCodec 0b11111111111100_00010_00110_00001100 = .ok (.lw regT1 regSP (-4)) := by decide
theorem test_decode_sw : decode defaultCodec 0b01111111111100_00101_00010_00001101 = .ok (.sw regSP regT0 8188) := by decide
theorem test_decode_syscall : decode defaultCodec 0b000000000000000000000000_00001110 = .ok .syscall := by decide
theorem test_decode_li : decode defaultCodec 0b1000000000000000000_01101_00001111 = .ok (.li regA0 (-262144)) := by decide

/-- V-DEC: 17 and 31 clamp, 16 does not. -/
theorem test_decode_clamps : decode defaultCodec 0x00463101 = .ok (.add regZero regZero regZero) ∧
    decode defaultCodec 0x00403F01 = .ok (.add regZero regRA regA3) := by decide
/-- V-DEC: bits 31:23 of format R and 31:8 of format N are ignored. -/
theorem test_decode_ignores : decode defaultCodec 0xFF9CC501 = .ok (.add regT0 regT1 regT2) ∧
    decode defaultCodec 0xABCDEF0E = .ok .syscall := by decide
/-- V-DEC: unknown opcodes, the payload the low byte alone. -/
theorem test_decode_unknown : decode defaultCodec 0 = .error (.unknownOpcode 0) ∧
    decode defaultCodec 0x10 = .error (.unknownOpcode 0x10) ∧ decode defaultCodec 0x12345678 = .error (.unknownOpcode 0x78) := by decide
theorem test_decode_truncated : decodeBytes defaultCodec [0x0E, 0, 0] = .error .truncated := by decide
/-- Section 9 of `30_encoding.md`: the word and its bytes in memory order. -/
theorem test_table_word : decodeTableWord 32 0xFFFCA50A = some (.addI regT0 regT0 (-1)) := by decide
/-- V-ENC. -/
theorem test_encode_words : encode defaultCodec (.add regA3 regA3 regA3) = 0x00421001 ∧
    encode defaultCodec (.addI regRA regSP (-8192)) = 0x8000410A ∧ encode defaultCodec (.sw regSP regT0 (-4)) = 0xFFF0A20D ∧
    encode defaultCodec (.li regSP 0x7FFC) = 0x0FFF820F := by decide
/-- V-ENC: `Li{A0,262143}` as bytes. -/
theorem test_encode_bytes : encodeBytes defaultCodec (.li regA0 262143) = [0x0F, 0xED, 0xFF, 0x7F] := by decide
/-- R26, D3: under another legal table of layouts the same word names other operands, and the step reads it so. -/
theorem test_other_layouts : decode sourcesFirst 0x001CC501 = .ok (.add regT2 regT0 regT1) ∧
    encode sourcesFirst (.add regT2 regT0 regT1) = 0x001CC501 ∧ decode sourcesFirst 0x001CC502 = .ok (.sub regT0 regT1 regT2) ∧
    ({ standardConfig with codec := sourcesFirst } : Config).Valid := by decide
/-- R81, R64: a layout that loses a field, changes a width or doubles a role builds no machine. -/
theorem test_illegal_layouts : ¬ { defaultLayouts with add := [.reg .rd, .reg .rs1] }.Valid ∧
    ¬ { defaultLayouts with addI := [.reg .rd, .reg .rs, .immediate 19] }.Valid ∧
    ¬ { defaultLayouts with sub := [.reg .rd, .reg .rs1, .reg .rs1] }.Valid := by decide
/-- V-IMM. -/
theorem test_immediates : toBits 14 (-8192) = 0x2000 ∧ fromBits 14 0x3000 = -4096 ∧ toBits 19 (-100) = 0x7FF9C ∧
    fromBits 19 0x40000 = -262144 := by decide
theorem test_assemble_refuses : assemble defaultCodec (.addI 5 5 8192) = .error (.immediateOutOfRange 8192 14) := by decide

/-! ## Instructions (V-AL, V-SH, V-IM) -/

theorem test_add_wraps : regAfter (exec (.add 5 6 7) (preset [(6, 0xFFFFFFFF), (7, 1)])) 5 = some 0 := by decide
theorem test_add_same : regAfter (exec (.add 5 5 5) (preset [(5, 0x80000000)])) 5 = some 0 := by decide
theorem test_sub_order : regAfter (exec (.sub 5 6 7) (preset [(6, 0), (7, 1)])) 5 = some 0xFFFFFFFF := by decide
theorem test_sub_sign : regAfter (exec (.sub 5 6 7) (preset [(6, 0x80000000), (7, 1)])) 5 = some 0x7FFFFFFF := by decide
theorem test_mul_signs : regAfter (exec (.mul 5 6 7) (preset [(6, 12345), (7, 0xFFFFFFFE)])) 5 = some 0xFFFF9F8E := by decide
theorem test_mul_high_lost : regAfter (exec (.mul 5 6 7) (preset [(6, 0x10000), (7, 0x10000)])) 5 = some 0 := by decide
theorem test_and : regAfter (exec (.and 5 6 7) (preset [(6, 0xF0F0F0F0), (7, 0x0FF00FF0)])) 5 = some 0x00F000F0 := by decide
theorem test_or : regAfter (exec (.or 5 6 7) (preset [(6, 0xF0F0F0F0), (7, 0x0FF00FF0)])) 5 = some 0xFFF0FFF0 := by decide
theorem test_xor : regAfter (exec (.xor 5 6 7) (preset [(6, 0xF0F0F0F0), (7, 0x0FF00FF0)])) 5 = some 0xFF00FF00 := by decide
theorem test_shl_by_33 : regAfter (exec (.shl 5 6 7) (preset [(6, 0x80000001), (7, 33)])) 5 = some 2 := by decide
theorem test_shl_same : regAfter (exec (.shl 5 5 5) (preset [(5, 3)])) 5 = some 0x18 := by decide
theorem test_shr_by_32 : regAfter (exec (.shr 5 6 7) (preset [(6, 0x80000001), (7, 32)])) 5 = some 0x80000001 := by decide
theorem test_shr_by_1 : regAfter (exec (.shr 5 6 7) (preset [(6, 0x80000001), (7, 1)])) 5 = some 0x40000000 := by decide
theorem test_shrA_negative : regAfter (exec (.shrA 5 6 7) (preset [(6, 0xF0000000), (7, 0xFFFFFFFF)])) 5 = some 0xFFFFFFFF := by decide
theorem test_shrA_positive : regAfter (exec (.shrA 5 6 7) (preset [(6, 0x7FFFFFFF), (7, 4)])) 5 = some 0x07FFFFFF := by decide
theorem test_addI_max : regAfter (exec (.addI 5 6 8191) (preset [(6, 0xFFFFFFFF)])) 5 = some 0x1FFE := by decide
/-- V-IM: register Zero is writable (D5). -/
theorem test_addI_zero : regAfter (exec (.addI 0 0 1) (preset [])) 0 = some 1 := by decide
theorem test_lui_unshifted : regAfter (exec (.lui 5 43) (preset [])) 5 = some 43 := by decide
theorem test_lui_min : regAfter (exec (.lui 5 (-262144)) (preset [])) 5 = some 0xFFFC0000 := by decide
theorem test_li_minus_one : regAfter (exec (.li 5 (-1)) (preset [(5, 0x1234)])) 5 = some 0xFFFFFFFF := by decide
theorem test_li_max : regAfter (exec (.li 13 262143) (preset [])) 13 = some 0x3FFFF := by decide
theorem test_syscall : (stateOf (exec .syscall (preset []))).map (·.halt) = some true := by decide

/-! ## Load and store, one STEP of a loaded program (V-LS) -/

theorem test_sw_writes : (after .step (holding 0x0000A20D [(2, 0x7FFC), (5, 0xDEADBEEF)])).mem.readLE 0x7FFC 4 = 0xDEADBEEF := by decide
/-- V-LS-2, V-LS-3, V-LS-4. -/
theorem test_sw_errors_low : reply .step (holding 0x0000A20D [(2, 0x7FFD)]) = some (.error (.memory (.unalignedAccess 0x7FFD 4))) ∧
    reply .step (holding 0x0000A20D []) = some (.error (.memory (.permissionDenied .write 0))) ∧
    reply .step (holding 0x0000A20D [(2, 4)]) = some (.error (.memory (.permissionDenied .write 4))) := by decide
/-- V-LS-5, V-LS-6, V-LS-9. -/
theorem test_sw_errors_high : reply .step (holding 0x0000A20D [(2, 8)]) = some (.error (.memory .invalidAddress)) ∧
    reply .step (holding 0x0000A20D [(2, 0x8000)]) = some (.error (.memory .outOfBounds)) ∧
    reply .step (holding 0x0010A20D [(2, 0xFFFFFFFC)]) = some (.error (.memory (.permissionDenied .write 0))) := by decide
/-- V-LS-12: a program reads its own word. -/
theorem test_lw_reads_code : (after .step (holding 0xFFF0460C [(2, 4)])).readReg 6 = 0xFFF0460C := by decide
/-- V-LS-13, V-LS-14, V-LS-15. -/
theorem test_lw_outcomes : reply .step (holding 0x0000460C [(2, 4)]) = some .ok ∧
    reply .step (holding 0x0000460C [(2, 8)]) = some (.error (.memory .invalidAddress)) ∧
    reply .step (holding 0x0000460C [(2, 0x7FFE)]) = some (.error (.memory (.unalignedAccess 0x7FFE 4))) := by decide

/-! ## Steps, runs, loads (V-ERR, V-SYS, V-LOAD, V-MEM, V-ALIGN) -/

/-- V-ERR: the first three rows; `pc` after each. -/
theorem test_errors_leave_pc : (after .step State.reset).pc = 4 ∧ (after .step (sized 2 0)).pc = 0 ∧
    (after .step (holding 0x12345678 [])).pc = 4 := by decide
theorem test_errors_named : reply .step State.reset = some (.error (.decode (.unknownOpcode 0))) ∧
    reply .step (sized 2 0) = some (.error (.memory .outOfBounds)) ∧
    reply .step (holding 0x12345678 []) = some (.error (.decode (.unknownOpcode 0x78))) := by decide
/-- V-SYS: a halted machine runs no further but steps. -/
theorem test_halted_machine_steps :
    (after .step (after .step (after (.load [0x0E, 0, 0, 0, 0x0F, 0x25, 0, 0]) State.reset))).readReg 5 = 1 := by decide
theorem test_run_ends_at_syscall : reply .run (holding 0x0000000E []) = some .ok ∧ (after .run (holding 0x0000000E [])).halt = true := by decide
/-- V-LOAD: the regions after a load of 12 bytes, and the refusal of a second load. -/
theorem test_load_bounds : (after (.load (List.replicate 12 7)) State.reset).regions.code.last = 11 ∧
    (after (.load (List.replicate 12 7)) State.reset).regions.data.start = 12 ∧
    refusal (.load []) (holding 0x0E []) = some .alreadyLoaded := by decide
/-- V-LOAD: 5 bytes; 12 bytes into a memory of 8. -/
theorem test_load_errors : reply (.load [0x0E, 0, 0, 0, 0x0E]) State.reset = some (.error (.memory (.unalignedAccess 5 4))) ∧
    reply (.load (List.replicate 12 7)) (sized 8 4) = some (.error (.memory .outOfBounds)) ∧
    refusal .step (after (.load (List.replicate 12 7)) (sized 8 4)) = some .machinePoisoned := by decide
/-- V-MEM, the rows on one write. -/
theorem test_host_memory : reply (.memRead 0x7000 .byte) (after (.memWrite 0x7000 .word 0x11223344) State.reset) = some (.value 0x44) ∧
    reply (.memRead 0x7002 .half) (after (.memWrite 0x7000 .word 0x11223344) State.reset) = some (.value 0x1122) ∧
    reply (.memRead 0x7001 .word) (after (.memWrite 0x7000 .word 0x11223344) State.reset) = some (.value 0x00112233) := by decide
/-- V-MEM, rows on the bounds. -/
theorem test_host_memory_errors : reply (.memWrite 0 .word 1) State.reset = some (.error (.memory (.permissionDenied .write 0))) ∧
    reply (.memRead 1 .byte) State.reset = some (.error (.memory .invalidAddress)) ∧
    reply (.memWrite 0x7FFD .word 1) State.reset = some (.error (.memory .outOfBounds)) ∧
    reply (.memWrite 0x7FFF .byte 1) State.reset = some .ok := by decide
/-- V-ALIGN, and S13. -/
theorem test_align_and_stack : reply (.alignCheck .word 0x7FFF) State.reset = some (.error (.memory (.unalignedAccess 0x7FFF 4))) ∧
    reply (.alignCheck .half 0x7FFE) State.reset = some .ok ∧ reply .stackStart State.reset = some (.value 0x7FFF) := by decide
/-- Writing 0 removes the entry: equal memories are equal data. -/
theorem test_memory_canonical : (Memory.put (Memory.put [] 9 5) 3 7) = [(3, 7), (9, 5)] ∧ (Memory.put [(3, 7), (9, 5)] 3 0) = [(9, 5)] ∧
    ¬ Memory.wf [(9, 5), (3, 7)] ∧ ¬ Memory.wf [(3, 0)] := by decide
/-- The first step after reset runs the word placed where it fetches. -/
theorem test_withFetchWord : regAfter (step (State.reset.withFetchWord 32 0x0005650B)) 5 = some 43 := by decide

end Sys2Proof.Tests
end

