-- ==== Sys2Proof/Tests/Witness.lean ====
section
/-! SUPPORT. For each statement of Obligations.lean that has hypotheses, a concrete case that meets them, one for each clause, at values
where clauses meet. `witness_<Name>` belongs to `Obligations.<Name>`. -/

namespace Sys2Proof.Tests

open Sys2Proof.Machine

/-! ## Helpers -/

theorem next_of_isSome {o : Host.Outcome State Fault Refusal} (h : (stateOf o).isSome = true) : ∃ t, o = .next t := by
  cases o with
  | next t => exact ⟨t, rfl⟩
  | fault _ => cases h
  | refused _ => cases h

/-- The error an outcome ends in. -/
def errorOf : Host.Outcome State Fault Refusal → Option Error
  | .next _ => none
  | .fault (.raised e _) => some e
  | .refused _ => none

theorem fault_of_errorOf {o : Host.Outcome State Fault Refusal} {e : Error} (h : errorOf o = some e) :
    ∃ left, o = .fault (.raised e left) := by
  cases o with
  | next _ => cases h
  | fault f => obtain ⟨e', left⟩ := f; cases h; exact ⟨left, rfl⟩
  | refused _ => cases h

/-- A machine whose Code cannot be read and whose Stack cannot be written: no run reaches it, the clauses about denied accesses do. -/
def locked : State :=
  { State.reset with regions.code.perms.read := false, regions.stack.perms.write := false }

/-- The standard machine with the store of V-LS-1 loaded. -/
def storing : State := holding 0x0000A20D [(2, 0x7FFC), (5, 0xDEADBEEF)]

/-- A machine of exactly the program's 4 bytes, stepped once. -/
def exhausted : State := after .step (after (.load (leBytes 4 0x0000E50F)) (sized 4 0))

/-- The standard machine stepped once past its one-word program. -/
def pastTheEnd : State := after .step (holding 0x0000E50F [])

theorem storing_program : HasProgram storing 4 := ⟨by decide, by decide, by decide⟩

theorem storing_wellKept : WellKept storing :=
  ⟨by decide, by decide, by decide, by decide, by decide, by decide, fun _ => ⟨4, storing_program, fun h => absurd h (by decide)⟩⟩

theorem holding_sw_wellKept : WellKept (holding 0x0000A20D []) :=
  ⟨by decide, by decide, by decide, by decide, by decide, by decide,
    fun _ => ⟨4, ⟨by decide, by decide, by decide⟩, fun h => absurd h (by decide)⟩⟩

/-! ## Reset, encoding -/

theorem witness_ResetLeavesTheSpecifiedState : State.reset.config.Valid := by decide
theorem witness_ResetMeetsTheInvariant : standardConfig.Valid ∧ (sized 1 1).config.Valid := by decide
theorem witness_ImmediatesAreInvertible : -(2 ^ (14 - 1)) ≤ (-8192 : Int) ∧ (8191 : Int) ≤ 2 ^ (14 - 1) - 1 ∧
    -(2 ^ (19 - 1)) ≤ (-262144 : Int) ∧ (262143 : Int) ≤ 2 ^ (19 - 1) - 1 := by decide
theorem witness_ImmediateConstructionChecksTheRange : WellFormed (.lw 6 2 8191) ∧
    Instr.immediate (.lw 6 2 8192) = some (14, 8192) ∧ ¬ WellFormed (.lw 6 2 8192) ∧
    decode defaultCodec 0x7FFC460C = .ok (.lw 6 2 8191) := by decide
theorem witness_DecodeUndoesEncode : defaultCodec.Valid ∧ sourcesFirst.Valid ∧ WellFormed (.addI 16 0 (-8192)) ∧ WellFormed (.li 16 262143) ∧
    decode defaultCodec 0x00423001 = .ok (.add 16 0 16) ∧ encode defaultCodec (.add 16 0 16) = 0x00401001 ∧
    decode defaultCodec 0xABCDEF0E = .ok .syscall ∧ decode defaultCodec 0x0000000E = .ok .syscall := by decide
theorem witness_OnlyUnassignedOpcodesAreRefused : (∀ k ∈ Mnemonic.all, (defaultOpcodes.code k).toNat ≠ bitSlice 0x00000010 7 0) ∧
    (defaultOpcodes.code .li).toNat = bitSlice 0x0000000F 7 0 := by decide
theorem witness_DecodedInstructionsAreWellFormed : defaultCodec.Valid ∧ decode defaultCodec 0x8000410A = .ok (.addI 1 2 (-8192)) := by decide
theorem witness_RegisterFieldsClamp : regdec 1 = regRA ∧ regdec 16 = regA3 ∧ regdec 0 = regZero ∧ regdec 17 = regZero ∧
    regdec 31 = regZero := by decide
theorem witness_CodecFollowsTheLayoutTable : sourcesFirst.Valid ∧ decode sourcesFirst 0x001CC501 = .ok (.add 7 5 6) ∧
    sourcesFirst.layouts.layout .add = [⟨.rs1, .register⟩] ++ ⟨.rs2, .register⟩ :: [⟨.rd, .register⟩] ∧
    fieldAt sourcesFirst .add .rd 5 0x001CC501 = 7 := by decide
theorem witness_EncodePlacesEveryField : sourcesFirst.Valid ∧ defaultCodec.Valid ∧ placeOf sourcesFirst .add .rd = 18 := by decide
theorem witness_UnusedBitsAreIgnored : defaultCodec.Valid ∧ bitSlice 0x001CC501 7 0 = (defaultOpcodes.code .add).toNat ∧
    bitSlice 0xFF9CC501 22 0 = bitSlice 0x001CC501 22 0 ∧ bitSlice 0x0000000E 7 0 = (defaultOpcodes.code .syscall).toNat ∧
    bitSlice 0xABCDEF0E 7 0 = bitSlice 0x0000000E 7 0 := by decide

/-! ## The checker -/

theorem witness_CheckedReadsFollowTheRule : State.reset.config.memSize < (0x7FFD : Word).toNat + Width.word.bytes ∧
    (0x7FFC : Word).toNat + Width.word.bytes ≤ State.reset.config.memSize ∧ State.reset.regions.owner 0x6FFF = none ∧
    locked.regions.owner 0 = some .code ∧ (locked.regions.region .code).perms.read = false ∧
    State.reset.regions.owner 0x7000 = some .stack ∧ (State.reset.regions.region .stack).perms.read = true := by decide
theorem witness_CheckedWritesFollowTheRule : State.reset.regions.owner 1 = none ∧ State.reset.regions.owner 0 = some .code ∧
    (State.reset.regions.region .code).perms.write = false ∧ State.reset.regions.owner 0x7FFF = some .stack ∧
    (State.reset.regions.region .stack).perms.write = true := by decide
theorem witness_ReadAfterWriteGivesTheValue : ∃ t, memWrite State.reset 0x7000 .word 0x11223344 = .ok t ∧
    t.regions.owner 0x7000 = some .stack ∧ (t.regions.region .stack).perms.read = true := ⟨_, rfl, by decide, by decide⟩
theorem witness_NarrowReadsSeeLittleEndianParts : ∃ t, memWrite State.reset 0x7FFC .word 0x11223344 = .ok t ∧
    memRead t (0x7FFC + BitVec.ofNat 32 3) .byte = .ok 0x11 ∧ memRead t (0x7FFC + BitVec.ofNat 32 2) .half = .ok 0x1122 :=
  ⟨_, rfl, by decide, by decide⟩
theorem witness_AlignmentCheckFollowsTheRule : (0x7FFC : Word).toNat % Width.word.bytes = 0 ∧
    (0x7FFE : Word).toNat % Width.word.bytes ≠ 0 := by decide
theorem witness_WriteToZeroBeforeLoadIsDenied : State.reset.regions.owner 0 = some .code ∧
    (State.reset.regions.region .code).perms.write = false ∧ (sized 4 4).config.Valid ∧ Width.word.bytes ≤ (sized 4 4).config.memSize := by decide
theorem witness_OwnersFollowTheMap : HasProgram storing 4 ∧ storing.config.Valid ∧ HasProgram State.reset 0 ∧
    storing.regions.owner 3 = some .code ∧ storing.regions.owner 4 = some .data ∧ storing.regions.owner 5 = none ∧
    State.reset.regions.owner 0 = some .code ∧ State.reset.regions.owner 0x7FFF = some .stack :=
  ⟨storing_program, by decide, ⟨by decide, by decide, by decide⟩, by decide, by decide, by decide, by decide, by decide⟩

/-! ## Instructions: a word with each opcode, and each outcome of Lw and Sw -/

theorem witness_AddFollowsItsRule : defaultCodec.Valid ∧ bitSlice 0x001CC501 7 0 = (defaultOpcodes.code .add).toNat := by decide
theorem witness_SubFollowsItsRule : defaultCodec.Valid ∧ bitSlice 0x001CC502 7 0 = (defaultOpcodes.code .sub).toNat := by decide
theorem witness_MulFollowsItsRule : defaultCodec.Valid ∧ bitSlice 0x001CC503 7 0 = (defaultOpcodes.code .mul).toNat := by decide
theorem witness_AndFollowsItsRule : defaultCodec.Valid ∧ bitSlice 0x001CC504 7 0 = (defaultOpcodes.code .and).toNat := by decide
theorem witness_OrFollowsItsRule : defaultCodec.Valid ∧ bitSlice 0x001CC505 7 0 = (defaultOpcodes.code .or).toNat := by decide
theorem witness_XorFollowsItsRule : defaultCodec.Valid ∧ bitSlice 0x001CC506 7 0 = (defaultOpcodes.code .xor).toNat := by decide
theorem witness_ShiftLeftFollowsItsRule : defaultCodec.Valid ∧ bitSlice 0x001CC507 7 0 = (defaultOpcodes.code .shl).toNat := by decide
theorem witness_ShiftRightFollowsItsRule : defaultCodec.Valid ∧ bitSlice 0x001CC508 7 0 = (defaultOpcodes.code .shr).toNat := by decide
theorem witness_ArithmeticShiftFollowsItsRule : defaultCodec.Valid ∧ bitSlice 0x001CC509 7 0 = (defaultOpcodes.code .shrA).toNat := by decide
theorem witness_ShiftAmountsFollowTheRule : State.reset.config.shamtTable = [] := by decide
theorem witness_AddImmediateFollowsItsRule : defaultCodec.Valid ∧ bitSlice 0x0014070A 7 0 = (defaultOpcodes.code .addI).toNat := by decide
theorem witness_LuiFollowsItsRule : defaultCodec.Valid ∧ bitSlice 0x0005650B 7 0 = (defaultOpcodes.code .lui).toNat := by decide
theorem witness_LiFollowsItsRule : defaultCodec.Valid ∧ bitSlice 0x80000D0F 7 0 = (defaultOpcodes.code .li).toNat := by decide
theorem witness_SyscallFollowsItsRule : defaultCodec.Valid ∧ bitSlice 0xABCDEF0E 7 0 = (defaultOpcodes.code .syscall).toNat := by decide

/-- The address hypothesis with a wrap, and one address for each of the five outcomes of `Lw`. -/
theorem witness_LoadWordFollowsItsRule : defaultCodec.Valid ∧ bitSlice 0x0000460C 7 0 = (defaultOpcodes.code .lw).toNat ∧
    ((0 : Word).toNat : Int) = (((preset [(2, 0xFFFFFFFC)]).readReg 2).toNat + 4) % 2 ^ 32 ∧
    (0x7FFF : Word).toNat % 4 ≠ 0 ∧ State.reset.config.memSize < (0x8000 : Word).toNat + 4 ∧
    (0x6FFC : Word).toNat + 4 ≤ State.reset.config.memSize ∧ State.reset.regions.owner 0x6FFC = none ∧
    locked.regions.owner 0 = some .code ∧ (locked.regions.region .code).perms.read = false ∧
    State.reset.regions.owner 0x7FFC = some .stack ∧ (State.reset.regions.region .stack).perms.read = true := by decide
/-- The same for `Sw`. -/
theorem witness_StoreWordFollowsItsRule : defaultCodec.Valid ∧ bitSlice 0x0000A20D 7 0 = (defaultOpcodes.code .sw).toNat ∧
    ((0x7FFC : Word).toNat : Int) = (((preset [(2, 0x8000)]).readReg 2).toNat + -4) % 2 ^ 32 ∧
    (0x7FFD : Word).toNat % 4 ≠ 0 ∧ State.reset.config.memSize < (0x8000 : Word).toNat + 4 ∧
    State.reset.regions.owner 8 = none ∧ State.reset.regions.owner 0 = some .code ∧
    (State.reset.regions.region .code).perms.write = false ∧ State.reset.regions.owner 0x7FFC = some .stack ∧
    (State.reset.regions.region .stack).perms.write = true := by decide
theorem witness_StoreWordChangesOnlyItsFourBytes : (∃ t, exec (.sw 2 5 0) storing = .next t) ∧ effectiveAddress storing 2 0 = 0x7FFC :=
  ⟨next_of_isSome (by decide), by decide⟩

/-! ## Steps -/

theorem witness_StepRunsTheDecodedInstruction : (sized 2 0).poisoned = false ∧
    memRead (sized 2 0) (sized 2 0).pc .word = .error .outOfBounds ∧
    memRead storing storing.pc .word = .ok 0x0000A20D ∧ decode storing.config.codec 0x0000A20D = .ok (.sw 2 5 0) ∧
    memRead State.reset State.reset.pc .word = .ok 0 ∧ decode State.reset.config.codec 0 = .error (.unknownOpcode 0) := by decide
theorem witness_ErrorsLeaveWhatTheStepHadDone : (∃ left, step (sized 2 0) = .fault (.raised (.memory .outOfBounds) left)) ∧
    (∃ left, step State.reset = .fault (.raised (.decode (.unknownOpcode 0)) left)) ∧
    ∃ left, step (holding 0x0000A20D []) = .fault (.raised (.memory (.permissionDenied .write 0)) left) :=
  ⟨fault_of_errorOf (by decide), fault_of_errorOf (by decide), fault_of_errorOf (by decide)⟩
theorem witness_OnlyLoadsAndStoresRaiseInExecute :
    ∃ left, exec (.lw 6 2 1) State.reset = .fault (.raised (.memory (.unalignedAccess 1 4)) left) := fault_of_errorOf (by decide)
theorem witness_OnlySyscallSetsHalt : (holding 0x0E []).config.codec.opc.Injective ∧ ∃ t, step (holding 0x0E []) = .next t :=
  ⟨by decide, next_of_isSome (by decide)⟩
theorem witness_PcAdvancesByFour : storing.config.Valid ∧ ∃ t, step storing = .next t := ⟨by decide, next_of_isSome (by decide)⟩
theorem witness_StepsLeaveTheControlState : ∃ t, step storing = .next t := next_of_isSome (by decide)

/-! ## The whole machine -/

theorem witness_StepKeepsTheInvariant : WellKept storing ∧ ∃ t, step storing = .next t :=
  ⟨storing_wellKept, next_of_isSome (by decide)⟩
theorem witness_HostOperationsKeepTheInvariant : WellKept storing ∧ (reply .run storing).isSome = true ∧
    (reply (.memWrite 0x7000 .byte 1) storing).isSome = true := ⟨storing_wellKept, by decide, by decide⟩
theorem witness_ProgramsWriteOnlyTheStack : WellKept storing ∧ HasProgram storing 4 ∧ (∃ t, step storing = .next t) ∧
    (after .step storing).byteAt 0x7FFF ≠ storing.byteAt 0x7FFF :=
  ⟨storing_wellKept, storing_program, next_of_isSome (by decide), by decide⟩
theorem witness_ReadsAreNeverDenied : WellKept (holding 0x0000A20D []) ∧
    ∃ left, step (holding 0x0000A20D []) = .fault (.raised (.memory (.permissionDenied .write 0)) left) :=
  ⟨holding_sw_wellKept, fault_of_errorOf (by decide)⟩
theorem witness_RunningOffTheEndIsAnError : HasProgram exhausted 4 ∧ exhausted.config.Valid ∧ exhausted.poisoned = false ∧
    exhausted.pc.toNat = 4 ∧ exhausted.config.memSize < 4 + 4 ∧ HasProgram pastTheEnd 4 ∧ pastTheEnd.pc.toNat = 4 ∧
    pastTheEnd.poisoned = false ∧ (∀ i < 4, pastTheEnd.byteAt (4 + i) = 0) ∧
    (∀ k ∈ Mnemonic.all, pastTheEnd.config.codec.opc.code k ≠ 0) ∧ (sized 3 0).config.Valid ∧ (sized 4 0).config.Valid :=
  ⟨⟨by decide, by decide, by decide⟩, by decide, by decide, by decide, by decide, ⟨by decide, by decide, by decide⟩, by decide, by decide,
    by decide, by decide, by decide, by decide⟩

/-! ## Runs, loads, host operations -/

theorem witness_RunRepeatsSteps : storing.config.Valid ∧ storing.poisoned = false ∧ storing.halt = false ∧
    (after .step (holding 0x0E [])).halt = true ∧ (after .step (holding 0x0E [])).poisoned = false := by decide
theorem witness_EveryRunEnds : (holding 0x0E []).config.Valid ∧ (holding 0x0E []).poisoned = false := by decide
theorem witness_StepsAreBoundedByTheMemory : storing.config.Valid ∧ ∃ t, Sys2Proof.core.run 1 storing = .next t :=
  ⟨by decide, next_of_isSome (o := Sys2Proof.core.run 1 storing) (by decide)⟩
theorem witness_LoadInstallsTheProgram : (sized 8 0).config.Valid ∧ (sized 8 0).poisoned = false ∧ (sized 8 0).loaded = false ∧
    (leBytes 8 0).length % 4 = 0 ∧ (leBytes 8 0).length ≤ (sized 8 0).config.memSize := by decide
theorem witness_BadLengthLoadChangesNothing : State.reset.poisoned = false ∧ State.reset.loaded = false ∧
    (leBytes 5 0).length % 4 ≠ 0 ∧ State.reset.config.loadLenTable = [] := by decide
theorem witness_FailedLoadPoisons : (sized 8 4).config.Valid ∧ (leBytes 12 0).length % 4 = 0 ∧
    (sized 8 4).config.memSize < (leBytes 12 0).length ∧ (leBytes 12 0).length < 2 ^ 32 ∧
    (after (.load (leBytes 12 0)) (sized 8 4)).poisoned = true := by decide
theorem witness_SecondLoadIsRefused : storing.poisoned = false ∧ storing.loaded = true := by decide
theorem witness_HostOperationsAnswer : State.reset.poisoned = false ∧ State.reset.config.Valid ∧
    memRead State.reset 0 .word = .ok 0 ∧ memRead State.reset 1 .byte = .error .invalidAddress ∧
    memWrite State.reset 0 .word 1 = .error (.permissionDenied .write 0) ∧ alignCheck .half 0x7FFE = .ok () ∧
    alignCheck .word 0x7FFE = .error (.unalignedAccess 0x7FFE 4) ∧ (∃ t, step storing = .next t) ∧
    (∃ left, step State.reset = .fault (.raised (.decode (.unknownOpcode 0)) left)) ∧ (∃ t, run (holding 0x0E []) = .next t) ∧
    ∃ left, run storing = .fault (.raised (.decode (.unknownOpcode 0)) left) :=
  ⟨by decide, by decide, by decide, by decide, by decide, by decide, by decide, next_of_isSome (by decide),
    fault_of_errorOf (by decide), next_of_isSome (by decide), fault_of_errorOf (by decide)⟩

end Sys2Proof.Tests
end

section
/-! SUPPORT. The family `00_scope.md`: which configurations build a machine (R6, R26, R182), and what the parameter `SHAMT` can be
(R6, `42_shift.md` R114). -/

namespace Sys2Proof

open Machine

/-! ## Legal configurations -/

/-- The duplicate-free opcode list of R76, as injectivity on mnemonics: the list names every mnemonic once. -/
theorem OpcodeMap.injective_iff {m : OpcodeMap} : m.Injective ↔ ∀ j k, m.code j = m.code k → j = k := by
  have hall : Mnemonic.all.Nodup := by decide
  rw [OpcodeMap.Injective, List.nodup_map_iff_inj_on hall]
  simp only [Mnemonic.mem_all, true_imp_iff]

theorem LayoutTable.valid_iff {t : LayoutTable} : t.Valid ↔ ∀ k, (t.layout k).Perm (defaultLayouts.layout k) :=
  ⟨LayoutTable.Valid.perm, fun h k _ => h k⟩

/-- R64, format by format: the fields of each mnemonic. -/
theorem defaultLayouts_layout (k : Mnemonic) :
    defaultLayouts.layout k =
      if k = .syscall then []
      else if k ∈ [Mnemonic.lui, .li] then [⟨.rd, .register⟩, ⟨.imm, .immediate 19⟩]
      else if k ∈ [Mnemonic.addI, .lw, .sw] then [⟨.rd, .register⟩, ⟨.rs, .register⟩, ⟨.imm, .immediate 14⟩]
      else [⟨.rd, .register⟩, ⟨.rs1, .register⟩, ⟨.rs2, .register⟩] := by
  cases k <;> rfl

theorem Machine.State.construct_isSome_iff {c : Config} : (State.construct c).isSome ↔ c.Valid := by
  by_cases h : c.Valid <;> simp [State.construct, h]

/-- Settles O2: construction tests `Config.Valid`, whose opcode list and layout table are read mnemonic by mnemonic. -/
theorem onlyLegalConfigurationsBuildAMachine : Obligations.OnlyLegalConfigurationsBuildAMachine := by
  intro c
  have hsize : c.memSize < 2 ^ 32 ↔ c.memSize ≤ 2 ^ 32 - 1 := by omega
  simp only [← defaultLayouts_layout]
  rw [State.construct_isSome_iff, Config.Valid, Codec.Valid, OpcodeMap.injective_iff, LayoutTable.valid_iff, hsize]

/-! ## The parameter `SHAMT` -/

theorem Config.shamt_of_table_nil {c : Config} (h : c.shamtTable = []) (v : Word) : (c.shamt v).val = v.toNat % 32 := by
  simp [Config.shamt, h]

/-- A table with an entry `(v, f v)` for every word `v` makes `f` the machine's `SHAMT` (log 4). -/
theorem Config.shamt_of_graph (c : Config) (f : Word → Fin 32) {vs : List Word} (hvs : ∀ v, v ∈ vs) :
    Config.shamt { c with shamtTable := vs.map fun v => (v, f v) } = f := by
  funext v
  simp [Config.shamt, List.lookup_graph f (hvs v)]

theorem Machine.shiftAmount_le (s : State) (v : Word) : shiftAmount s v ≤ 31 :=
  Fin.is_le (s.config.shamt v)

/-- Settles O28: the amount is a `Fin 32`, the empty table leaves `v mod 32`, and the graph of a function over all words is its table. -/
theorem shiftAmountsFollowTheRule : Obligations.ShiftAmountsFollowTheRule :=
  ⟨fun s v => ⟨shiftAmount_le s v, fun h => Config.shamt_of_table_nil h v⟩,
    fun c f => ⟨(FinEnum.toList Word).map fun v => (v, f v), Config.shamt_of_graph c f FinEnum.mem_toList⟩⟩

end Sys2Proof
end

section
/-! SUPPORT. The family `10_state.md`: what a checked write, an instruction and a step leave of the control state and the memory, and
which step sets `halt` (R16 to R18, R23, R30). -/

namespace Sys2Proof.Machine

/-! ## Memory inside the capacity -/

/-- The memory half of `WellKept`: canonical, and nothing listed at or above the capacity `n` (R30). -/
structure Memory.Within (m : Memory) (n : Nat) : Prop where
  canonical : m.wf
  inside : ∀ c ∈ m, c.1 < n

theorem Memory.Within.writeLE {m : Memory} {cap a n : Nat} (h : m.Within cap) (hfit : a + n ≤ cap) (v : Nat) :
    (m.writeLE a n v).Within cap where
  canonical := Memory.wf_writeLE h.canonical a n v
  inside c hc := by
    rcases Memory.mem_writeLE hc with hin | hold
    · omega
    · exact h.inside c hold

/-- A checked write keeps the memory inside its capacity: the check of R38 has passed. -/
theorem memWrite_within {s t : State} {a : Word} {w : Width} {v : Word} (h : memWrite s a w v = .ok t)
    (hm : s.mem.Within s.config.memSize) : t.mem.Within s.config.memSize := by
  obtain ⟨hok, rfl⟩ := memWrite_ok_iff.1 h
  exact hm.writeLE (checkAccess_ok_iff.1 hok).1 _

theorem memWrite_sameControl {s t : State} {a : Word} {w : Width} {v : Word} (h : memWrite s a w v = .ok t) :
    SameControl s t := by
  obtain ⟨-, rfl⟩ := memWrite_ok_iff.1 h
  exact ⟨rfl, rfl, rfl, rfl, rfl, rfl⟩

/-! ## What an executed instruction leaves -/

/-- No instruction touches `pc`, the flags, the descriptors, the engine's bits or the configuration (R18, R23, R26, R95). -/
theorem exec_next_sameControl {i : Instr} {s t : State} (h : exec i s = .next t) : SameControl s t := by
  rcases exec_next_cases h with ⟨rd, v, rfl, -⟩ | ⟨-, rfl⟩ | ⟨rd, rs, imm, -, hst⟩
  · exact ⟨rfl, rfl, rfl, rfl, rfl, rfl⟩
  · exact ⟨rfl, rfl, rfl, rfl, rfl, rfl⟩
  · exact memWrite_sameControl (storeWord_ok_iff.1 hst).2

theorem exec_next_within {i : Instr} {s t : State} (h : exec i s = .next t) (hm : s.mem.Within s.config.memSize) :
    t.mem.Within s.config.memSize := by
  rcases exec_next_cases h with ⟨rd, v, rfl, -⟩ | ⟨-, rfl⟩ | ⟨rd, rs, imm, -, hst⟩
  · exact hm
  · exact hm
  · exact memWrite_within (storeWord_ok_iff.1 hst).2 hm

/-- Syscall alone sets `halt`, and no instruction clears it (R17, R140). -/
theorem exec_next_halt_iff {i : Instr} {s t : State} (h : exec i s = .next t) :
    t.halt = true ↔ s.halt = true ∨ i = .syscall := by
  rcases exec_next_cases h with ⟨rd, v, rfl, hne, -⟩ | ⟨rfl, rfl⟩ | ⟨rd, rs, imm, rfl, hst⟩
  · simp [hne]
  · simp
  · obtain ⟨-, rfl⟩ := memWrite_ok_iff.1 (storeWord_ok_iff.1 hst).2
    simp

/-- An instruction that raises an error has changed nothing (R133, R152). -/
theorem exec_fault_left {i : Instr} {s : State} {f : Fault} (h : exec i s = .fault f) : ∃ e, f = .raised e s := by
  cases i with
  | lw rd rs imm =>
    simp only [exec, execLw] at h
    split at h <;> cases h
    exact ⟨_, rfl⟩
  | sw rd rs imm =>
    simp only [exec, execSw] at h
    split at h <;> cases h
    exact ⟨_, rfl⟩
  | add | sub | mul | and | or | xor | shl | shr | shrA | addI | lui | syscall | li => cases h

/-! ## What a step leaves -/

/-- A completed step leaves the control state of the advanced machine. -/
theorem step_next_sameControl {s t : State} (h : step s = .next t) : SameControl s.advance t := by
  obtain ⟨-, w, i, -, -, hexec⟩ := step_next_cases h
  exact exec_next_sameControl hexec

/-- An error leaves the state of the step's start when the fetch failed, and else that state advanced (R152). -/
theorem step_fault_cases {s left : State} {e : Error} (h : step s = .fault (.raised e left)) :
    left = s ∨ (left = s.advance ∧ ∃ w, fetch s = .ok w) := by
  unfold step at h
  split at h
  · cases h
  · split at h
    · cases h; exact .inl rfl
    · next w hw =>
      refine .inr ⟨?_, w, hw⟩
      split at h
      · cases h; rfl
      · obtain ⟨e', he⟩ := exec_fault_left h
        cases he
        rfl

/-- After a successful fetch `pc + 4` does not wrap (R16). -/
theorem toNat_pc_add_four {s : State} {w : Word} (hc : s.config.Valid) (h : fetch s = .ok w) :
    (s.pc + 4).toNat = s.pc.toNat + 4 := by
  have hin := fetch_inside h
  obtain ⟨-, hsz, -⟩ := hc
  exact BitVec.toNat_add_of_lt (by simp only [BitVec.reduceToNat]; omega)

end Sys2Proof.Machine

namespace Sys2Proof

open Machine

/-- Settles O45: the control state a step leaves is that of the advanced machine, where `pc` alone differs. -/
theorem stepsLeaveTheControlState : Obligations.StepsLeaveTheControlState := by
  intro s t h
  obtain ⟨-, hflags, hregions, hpoisoned, hloaded, hconfig⟩ := step_next_sameControl h
  exact ⟨hregions, hflags, hpoisoned, hloaded, hconfig⟩

/-- Settles O44: the fetched word lies inside the memory, so the advance does not wrap, and execution leaves `pc`. -/
theorem pcAdvancesByFour : Obligations.PcAdvancesByFour := by
  intro s t hc h
  obtain ⟨-, w, i, hfetch, -, hexec⟩ := step_next_cases h
  obtain ⟨hpc, -⟩ := exec_next_sameControl hexec
  have hin := fetch_inside hfetch
  rw [hpc, advance_pc, toNat_pc_add_four hc hfetch]
  exact ⟨rfl, hin⟩

/-! ## Syscall and `halt` -/

/-- The instruction decoded is the one whose opcode stands in bits 7:0 (R61). -/
theorem code_mnemonic_of_decode {c : Codec} {w : Word} {i : Instr} (h : decode c w = .ok i) :
    c.opc.code i.mnemonic = opcodeField w := by
  obtain ⟨k, hk, rfl⟩ := decode_ok_iff.1 h
  rw [decodeAs, Instr.mnemonic_ofOperands]
  exact OpcodeMap.code_of_lookup hk

theorem Instr.mnemonic_eq_syscall_iff {i : Instr} : i.mnemonic = .syscall ↔ i = .syscall := by
  cases i <;> simp [Instr.mnemonic]

theorem decoded_syscall_iff {c : Codec} (hinj : c.opc.Injective) {w : Word} {i : Instr} (h : decode c w = .ok i) :
    i = .syscall ↔ bitSlice w 7 0 = (c.opc.code .syscall).toNat := by
  rw [← opcodeField_toNat, ← code_mnemonic_of_decode h, BitVec.toNat_inj, ← Instr.mnemonic_eq_syscall_iff]
  exact ⟨fun hi => hi ▸ rfl, fun hi => OpcodeMap.injective_iff.1 hinj _ _ hi⟩

/-- Settles O43: of the instruction executed, `halt` tells whether it was a Syscall, and the word fetched tells the same. -/
theorem onlySyscallSetsHalt : Obligations.OnlySyscallSetsHalt := by
  intro s t hinj h
  obtain ⟨-, w, i, hfetch, hdecode, hexec⟩ := step_next_cases h
  have hread : memRead s s.pc .word = .ok w := hfetch
  rw [exec_next_halt_iff hexec, decoded_syscall_iff hinj hdecode]
  simp [hread]

end Sys2Proof
end

section
/-! SUPPORT. The invariant of a well-kept machine: it holds at reset, and every step and every host operation keeps it. -/

namespace Sys2Proof.Machine

/-! ## The flags word affects nothing (R18) -/

/-- The state with another flags word. -/
def State.withFlags (s : State) (v : Word) : State := { s with flags := v }

/-- An outcome with another flags word in the state it gives or leaves. -/
def outcomeWithFlags (v : Word) : Host.Outcome State Fault Refusal → Host.Outcome State Fault Refusal
  | .next t => .next (t.withFlags v)
  | .fault (.raised e left) => .fault (.raised e (left.withFlags v))
  | .refused r => .refused r

theorem loadWord_withFlags (s : State) (v a : Word) : loadWord (s.withFlags v) a = loadWord s a := rfl

theorem storeWord_withFlags (s : State) (v a x : Word) :
    storeWord (s.withFlags v) a x = (storeWord s a x).map fun t => t.withFlags v := by
  by_cases h : a.toNat % 4 = 0
  · have hcheck : checkAccess (s.withFlags v) .write a Width.word.bytes = checkAccess s .write a Width.word.bytes := rfl
    rw [storeWord_aligned h, storeWord_aligned h, memWrite, memWrite, hcheck]
    cases checkAccess s .write a Width.word.bytes <;> rfl
  · rw [storeWord_unaligned h, storeWord_unaligned h]
    rfl

theorem exec_withFlags (i : Instr) (s : State) (v : Word) : exec i (s.withFlags v) = outcomeWithFlags v (exec i s) := by
  cases i with
  | lw rd rs imm =>
    have haddr : effectiveAddress (s.withFlags v) rs imm = effectiveAddress s rs imm := rfl
    simp only [exec, execLw, haddr, loadWord_withFlags]
    cases loadWord s (effectiveAddress s rs imm) <;> rfl
  | sw rd rs imm =>
    have haddr : effectiveAddress (s.withFlags v) rd imm = effectiveAddress s rd imm := rfl
    have hval : (s.withFlags v).readReg rs = s.readReg rs := rfl
    simp only [exec, execSw, haddr, hval, storeWord_withFlags]
    cases storeWord s (effectiveAddress s rd imm) (s.readReg rs) <;> rfl
  | add | sub | mul | and | or | xor | shl | shr | shrA | addI | lui | syscall | li => rfl

theorem step_withFlags (s : State) (v : Word) : step (s.withFlags v) = outcomeWithFlags v (step s) := by
  have hfetch : fetch (s.withFlags v) = fetch s := rfl
  have hadv : (s.withFlags v).advance = s.advance.withFlags v := rfl
  have hpois : (s.withFlags v).poisoned = s.poisoned := rfl
  have hcfg : (s.withFlags v).config = s.config := rfl
  simp only [step, hfetch, hadv, hpois, hcfg, exec_withFlags]
  split
  · rfl
  · cases fetch s with
    | error e => rfl
    | ok w =>
      dsimp only
      cases decode s.config.codec w <;> rfl

/-! ## The invariant, part by part -/

theorem HasProgram.congr {s t : State} {len : Nat} (h : HasProgram s len) (hr : t.regions = s.regions)
    (hc : t.config = s.config) : HasProgram t len where
  multiple := h.multiple
  fits := hc ▸ h.fits
  regions := by rw [hr, hc, h.regions]

theorem WellKept.within {s : State} (h : WellKept s) : s.mem.Within s.config.memSize := ⟨h.canonical, h.inside⟩

/-- Where `pc`, the flags and the configuration stay, the memory and the descriptors are what is left to show. -/
theorem WellKept.of_program {s t : State} (h : WellKept s) (hpc : t.pc = s.pc) (hflags : t.flags = s.flags)
    (hconfig : t.config = s.config) (hm : t.mem.Within s.config.memSize)
    (hprog : t.poisoned = false → ∃ len, HasProgram t len ∧ (t.loaded = false → len = 0)) : WellKept t where
  config := hconfig ▸ h.config
  canonical := hm.canonical
  inside := hconfig ▸ hm.inside
  flags := hflags.trans h.flags
  aligned := hpc ▸ h.aligned
  reached := hpc ▸ hconfig ▸ h.reached
  program := hprog

/-- The invariant speaks of the control state and the memory alone. -/
theorem WellKept.of_sameControl {s t : State} (h : WellKept s) (hc : SameControl s t)
    (hm : t.mem.Within s.config.memSize) : WellKept t := by
  obtain ⟨hpc, hflags, hregions, hpoisoned, hloaded, hconfig⟩ := hc
  refine h.of_program hpc hflags hconfig hm fun hp => ?_
  obtain ⟨len, hprog, hzero⟩ := h.program (hpoisoned ▸ hp)
  exact ⟨len, hprog.congr hregions hconfig, fun hl => hzero (hloaded ▸ hl)⟩

theorem WellKept.memWrite {s t : State} {a : Word} {w : Width} {v : Word} (h : WellKept s)
    (hw : Machine.memWrite s a w v = .ok t) : WellKept t :=
  h.of_sameControl (memWrite_sameControl hw) (memWrite_within hw h.within)

/-- Advancing after a successful fetch keeps `pc` aligned and inside the memory (R16). -/
theorem WellKept.advance {s : State} {w : Word} (h : WellKept s) (hf : fetch s = .ok w) : WellKept s.advance := by
  have hpc : s.advance.pc.toNat = s.pc.toNat + 4 := toNat_pc_add_four h.config hf
  have hin := fetch_inside hf
  have hal := h.aligned
  exact {
    config := h.config
    canonical := h.canonical
    inside := h.inside
    flags := h.flags
    aligned := by omega
    reached := by rw [hpc]; exact hin
    program := fun hp => by
      obtain ⟨len, hprog, hzero⟩ := h.program hp
      exact ⟨len, hprog.congr rfl rfl, hzero⟩ }

theorem WellKept.exec {i : Instr} {s t : State} (h : WellKept s) (hx : Machine.exec i s = .next t) : WellKept t :=
  h.of_sameControl (exec_next_sameControl hx) (exec_next_within hx h.within)

theorem WellKept.step_next {s t : State} (h : WellKept s) (hs : step s = .next t) : WellKept t := by
  obtain ⟨-, w, i, hfetch, -, hexec⟩ := step_next_cases hs
  exact (h.advance hfetch).exec hexec

theorem WellKept.step_fault {s left : State} {e : Error} (h : WellKept s) (hs : step s = .fault (.raised e left)) :
    WellKept left := by
  rcases step_fault_cases hs with rfl | ⟨rfl, w, hfetch⟩
  · exact h
  · exact h.advance hfetch

/-! ## Reset -/

theorem hasProgram_resetWith (c : Config) : HasProgram (State.resetWith c) 0 where
  multiple := rfl
  fits := Nat.zero_le _
  regions := rfl

theorem wellKept_resetWith {c : Config} (hc : c.Valid) : WellKept (State.resetWith c) where
  config := hc
  canonical := ⟨List.Pairwise.nil, nofun⟩
  inside := nofun
  flags := rfl
  aligned := rfl
  reached := Nat.zero_le _
  program _ := ⟨0, hasProgram_resetWith c, fun _ => rfl⟩

/-! ## What the host is given -/

/-- The host gets the next state with ok, or the error with the state it leaves (R152). -/
theorem outcomeReply_ok_iff {o : Host.Outcome State Fault Refusal} {r : Reply} {t : State} :
    outcomeReply o = .ok (r, t) ↔ (o = .next t ∧ r = .ok) ∨ ∃ e, o = .fault (.raised e t) ∧ r = .error e := by
  cases o with
  | next u => simp [outcomeReply, eq_comm, and_comm]
  | fault f => obtain ⟨e, u⟩ := f; simp [outcomeReply, eq_comm, and_comm]
  | refused r => simp [outcomeReply]

theorem WellKept.step_reply {s t : State} {r : Reply} (h : WellKept s) (hr : outcomeReply (step s) = .ok (r, t)) :
    WellKept t := by
  rcases outcomeReply_ok_iff.1 hr with ⟨hs, -⟩ | ⟨e, hs, -⟩
  · exact h.step_next hs
  · exact h.step_fault hs

theorem WellKept.runFor_reply {n : Nat} {s t : State} {r : Reply} (h : WellKept s)
    (hr : outcomeReply (runFor n s) = .ok (r, t)) : WellKept t := by
  induction n generalizing s with
  | zero =>
    simp only [runFor] at hr
    split at hr <;> cases hr
    exact h
  | succ n ih =>
    simp only [runFor] at hr
    split at hr
    · cases hr; exact h
    · split at hr
      · next u hu => exact ih (h.step_next hu) hr
      · next f hf => exact h.step_reply (hf ▸ hr)
      · cases hr

theorem WellKept.run_reply {s t : State} {r : Reply} (h : WellKept s) (hr : outcomeReply (run s) = .ok (r, t)) :
    WellKept t := by
  unfold run at hr
  split at hr
  · cases hr
  · exact h.runFor_reply hr

/-- An operation that only asks leaves the state. -/
theorem query_state {s t : State} {x : Except MemoryError Reply} {r : Reply} (h : query s x = .ok (r, t)) : t = s := by
  cases x <;> cases h <;> rfl

end Sys2Proof.Machine

namespace Sys2Proof

open Machine

/-- Settles O46: the checks, the operands and the decoder do not read the flags, so every phase commutes with changing them. -/
theorem flagsAffectNothing : Obligations.FlagsAffectNothing := by
  intro s v
  have h := step_withFlags s v
  generalize step s = o at h ⊢
  match o, h with
  | .next t, h => exact h
  | .fault (.raised e left), h => exact h
  | .refused r, h => exact h

/-- Settles O3: the memory is empty, `pc` is 0 and the descriptors are those of a program of no bytes. -/
theorem resetMeetsTheInvariant : Obligations.ResetMeetsTheInvariant :=
  ⟨fun _ hc => wellKept_resetWith hc, wellKept_resetWith (by decide)⟩

/-- Settles O47: the advance keeps the invariant because the fetch fitted the memory, execution because it leaves the control state
and every write is checked. -/
theorem stepKeepsTheInvariant : Obligations.StepKeepsTheInvariant :=
  fun _ _ h hs => h.step_next hs

end Sys2Proof
end

section
/-! SUPPORT. The program load (R22, R35, R191): the descriptors of the load window, the bytes the word writes leave, and the invariant
through every host operation. -/

namespace Sys2Proof.Machine

/-! ## Bytes of a little-endian number -/

theorem leToNat_lt (bs : List Byte) : leToNat bs < 256 ^ bs.length := by
  induction bs with
  | nil => simp [leToNat]
  | cons b bs ih =>
    have hb := b.isLt
    rw [leToNat, List.length_cons, pow_succ]
    omega

/-- Byte `i` of the number the bytes stand for (R32). -/
theorem leToNat_byte (bs : List Byte) {i : Nat} (h : i < bs.length) : BitVec.ofNat 8 (leToNat bs / 256 ^ i) = bs[i] := by
  induction bs generalizing i with
  | nil => cases h
  | cons b bs ih =>
    have hb := b.isLt
    cases i with
    | zero =>
      apply BitVec.eq_of_toNat_eq
      simp only [leToNat, pow_zero, Nat.div_one, BitVec.toNat_ofNat, List.getElem_cons_zero]
      omega
    | succ i =>
      have hdiv : (b.toNat + 256 * leToNat bs) / 256 = leToNat bs := by omega
      rw [leToNat, pow_succ', ← Nat.div_div_eq_div_mul, hdiv, ih (Nat.lt_of_succ_lt_succ h), List.getElem_cons_succ]

/-- Four bytes written as one word stand in memory in their own order. -/
theorem Memory.get_writeLE_leToNat (m : Memory) (a : Nat) {bs : List Byte} (h4 : bs.length = 4) {i : Nat} (h : i < bs.length) :
    (m.writeLE a 4 (BitVec.ofNat 32 (leToNat bs)).toNat).get (a + i) = bs[i] := by
  have hlt := leToNat_lt bs
  rw [h4] at hlt
  rw [Memory.get_writeLE_inside (h4 ▸ h), BitVec.toNat_ofNat, Nat.mod_eq_of_lt (by omega), leToNat_byte bs h]

/-! ## The descriptors of a load -/

/-- The descriptors in the load window of `len` bytes: Code over the program and writable (R22, R35). -/
def Regions.inWindow (rs : Regions) (len : Nat) : Regions :=
  { rs with code :=
    { start := if len = 0 then rs.code.start else 0
      last := if len = 0 then rs.code.last else BitVec.ofNat 32 (len - 1)
      perms := { rs.code.perms with write := true } } }

/-- The descriptors after the window closes: Code without Write, Data and Heap on the byte after it (R35). -/
def Regions.closed (rs : Regions) (len : Nat) : Regions :=
  { rs with
    code.perms.write := false
    data.start := if len = 0 then rs.data.start else BitVec.ofNat 32 len
    data.last := if len = 0 then rs.data.last else BitVec.ofNat 32 len
    heap.start := if len = 0 then rs.heap.start else BitVec.ofNat 32 len
    heap.last := if len = 0 then rs.heap.last else BitVec.ofNat 32 len }

theorem openWindow_eq (s : State) (len : Nat) :
    (s.setCodeBounds len).setCodeWrite true = { s with regions := s.regions.inWindow len } := by
  by_cases h : len = 0 <;> simp [State.setCodeBounds, State.setCodeWrite, Regions.inWindow, h]

theorem closeWindow_eq (s : State) (len : Nat) :
    (s.setCodeWrite false).setDataBounds len = { s with regions := s.regions.closed len } := by
  by_cases h : len = 0 <;> simp [State.setDataBounds, State.setCodeWrite, Regions.closed, h]

/-- From the descriptors of no program a load makes those of its own (R35). -/
theorem closed_inWindow_afterLoad (c : Config) (len : Nat) :
    ((Regions.afterLoad c 0).inWindow len).closed len = .afterLoad c len := by
  by_cases h : len = 0 <;> simp [Regions.inWindow, Regions.closed, Regions.afterLoad, Permissions.readOnly, h]

/-- What a load that returns has done: nothing, all its writes with the window closed, or the writes before the one that failed. -/
theorem loadProgram_cases {bytes : List Byte} {s t : State} {r : Reply} (h : loadProgram bytes s = .ok (r, t)) :
    t = s ∨
    (bytes.length % 4 = 0 ∧ ∃ u, writeWords bytes 0 { s with regions := s.regions.inWindow bytes.length } = .ok u ∧
      t = { u with regions := u.regions.closed bytes.length, loaded := true }) ∨
    ∃ e u, writeWords bytes 0 { s with regions := s.regions.inWindow bytes.length } = .error (e, u) ∧
      t = { u with poisoned := true } := by
  simp only [loadProgram, openWindow_eq, closeWindow_eq] at h
  split at h
  · cases h; exact .inl rfl
  · next hlen =>
    split at h
    · cases h
    · split at h
      · next u hu =>
        cases h
        exact .inr (.inl ⟨not_not.1 hlen, u, hu, rfl⟩)
      · next e u hu =>
        cases h
        exact .inr (.inr ⟨e, u, hu, rfl⟩)

/-! ## The word writes -/

/-- What every checked write keeps, the word writes keep, whether they end in success or in an error. -/
theorem writeWords_keeps {P : State → Prop}
    (hP : ∀ {s t : State} {a : Word} {v : Word}, P s → memWrite s a .word v = .ok t → P t)
    (bytes : List Byte) (k : Nat) {s : State} (hs : P s) :
    (∀ t, writeWords bytes k s = .ok t → P t) ∧ ∀ e t, writeWords bytes k s = .error (e, t) → P t := by
  fun_induction writeWords bytes k s with
  | case1 b0 b1 b2 b3 rest k s t hw ih => exact ih (hP hs hw)
  | case2 b0 b1 b2 b3 rest k s e hw => exact ⟨fun _ h => (nomatch h), fun _ _ h => by cases h; exact hs⟩
  | case3 bytes k s hshort => exact ⟨fun _ h => by cases h; exact hs, fun _ _ h => (nomatch h)⟩

/-- Where `writeWords` finds no word left, a string of whole words has ended. -/
theorem eq_nil_of_no_word {bytes : List Byte} (hlen : bytes.length % 4 = 0)
    (h : ∀ b0 b1 b2 b3 rest, bytes = b0 :: b1 :: b2 :: b3 :: rest → False) : bytes = [] := by
  match bytes, h with
  | [], _ => rfl
  | [_], _ | [_, _], _ | [_, _, _], _ => simp at hlen
  | b0 :: b1 :: b2 :: b3 :: rest, h => exact (h b0 b1 b2 b3 rest rfl).elim

/-- Words that were all written lie inside the memory (R38). -/
theorem writeWords_ok_fits {bytes : List Byte} {k : Nat} {s t : State} (h : writeWords bytes k s = .ok t)
    (hlen : bytes.length % 4 = 0) (hk : k ≤ s.config.memSize) (hsz : s.config.memSize < 2 ^ 32) :
    k + bytes.length ≤ s.config.memSize := by
  fun_induction writeWords bytes k s with
  | case1 b0 b1 b2 b3 rest k s u hw ih =>
    obtain ⟨hok, rfl⟩ := memWrite_ok_iff.1 hw
    have hin := (checkAccess_ok_iff.1 hok).1
    simp only [BitVec.toNat_ofNat, Nat.mod_eq_of_lt (Nat.lt_of_le_of_lt hk hsz), Width.bytes] at hin
    simp only [List.length_cons] at hlen ⊢
    have := ih h (by omega) hin hsz
    dsimp only at this
    omega
  | case2 b0 b1 b2 b3 rest k s e hw => cases h
  | case3 bytes k s hshort =>
    cases eq_nil_of_no_word hlen hshort
    exact hk

/-- Code owns every address up to its last when it starts at 0, being scanned first (R34). -/
theorem owner_eq_code {rs : Regions} {a : Word} (hstart : rs.code.start = 0) (hlast : a.toNat ≤ rs.code.last.toNat) :
    rs.owner a = some .code := by
  simp [Regions.owner, RegionKind.scanOrder, Regions.region, Region.owns, hstart, hlast]

/-- A word inside a writable Code region that starts at 0 passes every check. -/
theorem memWrite_in_window {s : State} {k : Nat} (v : Word) (hfit : k + 4 ≤ s.config.memSize)
    (hsz : s.config.memSize < 2 ^ 32) (hstart : s.regions.code.start = 0) (hlast : k ≤ s.regions.code.last.toNat)
    (hwrite : s.regions.code.perms.write = true) :
    memWrite s (BitVec.ofNat 32 k) .word v = .ok { s with mem := s.mem.writeLE k 4 v.toNat } := by
  have hk : (BitVec.ofNat 32 k).toNat = k := by rw [BitVec.toNat_ofNat]; omega
  rw [memWrite_ok_iff, checkAccess_ok_iff, hk]
  exact ⟨⟨hfit, .code, owner_eq_code hstart (by rwa [hk]), hwrite⟩, rfl⟩

/-- In a writable Code region that covers them, the words are written, each byte in its place, and no other byte changes (R191). -/
theorem writeWords_in_window {bytes : List Byte} {k : Nat} {s : State} (hlen : bytes.length % 4 = 0)
    (hfit : k + bytes.length ≤ s.config.memSize) (hsz : s.config.memSize < 2 ^ 32)
    (hcode : 0 < bytes.length → s.regions.code.start = 0 ∧ k + bytes.length ≤ s.regions.code.last.toNat + 1)
    (hwrite : s.regions.code.perms.write = true) :
    ∃ m, writeWords bytes k s = .ok { s with mem := m } ∧ (∀ j (h : j < bytes.length), m.get (k + j) = bytes[j]) ∧
      ∀ a, a < k ∨ k + bytes.length ≤ a → m.get a = s.mem.get a := by
  induction bytes, k, s using writeWords.induct with
  | case1 b0 b1 b2 b3 rest k s u hw ih =>
    obtain ⟨hstart, hlast⟩ := hcode (by simp)
    simp only [List.length_cons] at hlen hfit hlast
    have hwrites := memWrite_in_window (k := k) (BitVec.ofNat 32 (leToNat [b0, b1, b2, b3])) (by omega) hsz hstart
      (by omega) hwrite
    have hu := Except.ok.inj (hw.symm.trans hwrites)
    subst hu
    obtain ⟨m, hm, hin, hout⟩ := ih (by omega) (by dsimp only; omega) hsz (fun _ => ⟨hstart, by dsimp only; omega⟩) hwrite
    refine ⟨m, ?_, fun j hj => ?_, fun a ha => ?_⟩
    · simpa only [writeWords, hwrites] using hm
    · by_cases h4 : j < 4
      · rw [hout _ (by omega), Memory.get_writeLE_leToNat _ _ (by rfl) (by simpa using h4)]
        exact (List.getElem_append_left (bs := rest) (by simpa using h4)).symm
      · obtain ⟨i, rfl⟩ := Nat.exists_eq_add_of_le' (Nat.not_lt.1 h4)
        simp only [List.length_cons] at hj
        rw [show k + (i + 4) = k + 4 + i by omega, hin i (by omega)]
        rfl
    · simp only [List.length_cons] at ha
      rw [hout a (by omega), Memory.get_writeLE_outside (by omega)]
  | case2 b0 b1 b2 b3 rest k s e hw =>
    obtain ⟨hstart, hlast⟩ := hcode (by simp)
    simp only [List.length_cons] at hfit hlast
    rw [memWrite_in_window _ (by omega) hsz hstart (by omega) hwrite] at hw
    cases hw
  | case3 bytes k s hshort =>
    cases eq_nil_of_no_word hlen hshort
    exact ⟨s.mem, rfl, nofun, fun _ _ => rfl⟩

/-! ## The load as a whole -/

/-- The net effect of a load of legal length (R191). -/
theorem loadProgram_fits {bytes : List Byte} {s : State} (hlen : bytes.length % 4 = 0)
    (hfit : bytes.length ≤ s.config.memSize) (hsz : s.config.memSize < 2 ^ 32) :
    ∃ m, loadProgram bytes s = .ok (.ok, { s with
        mem := m, regions := (s.regions.inWindow bytes.length).closed bytes.length, loaded := true }) ∧
      (∀ k (h : k < bytes.length), m.get k = bytes[k]) ∧ ∀ a, bytes.length ≤ a → m.get a = s.mem.get a := by
  have hcode (h : 0 < bytes.length) : (s.regions.inWindow bytes.length).code.start = 0 ∧
      0 + bytes.length ≤ (s.regions.inWindow bytes.length).code.last.toNat + 1 := by
    simp only [Regions.inWindow, if_neg (Nat.ne_of_gt h), BitVec.toNat_ofNat, true_and]
    omega
  obtain ⟨m, hm, hin, hout⟩ := writeWords_in_window (bytes := bytes) (k := 0)
    (s := { s with regions := s.regions.inWindow bytes.length }) hlen (by simpa using hfit) hsz hcode rfl
  refine ⟨m, ?_, fun k h => ?_, fun a h => hout a (by omega)⟩
  · rw [loadProgram, if_neg (by omega), if_neg (by omega), openWindow_eq, hm]
    simp only [closeWindow_eq]
  · rw [← hin k h, Nat.zero_add]

theorem SameControl.trans {s t u : State} (h : SameControl s t) (h' : SameControl t u) : SameControl s u := by
  obtain ⟨hpc, hflags, hregions, hpoisoned, hloaded, hconfig⟩ := h
  obtain ⟨hpc', hflags', hregions', hpoisoned', hloaded', hconfig'⟩ := h'
  exact ⟨hpc'.trans hpc, hflags'.trans hflags, hregions'.trans hregions, hpoisoned'.trans hpoisoned,
    hloaded'.trans hloaded, hconfig'.trans hconfig⟩

/-- The word writes of a load change memory alone, inside its capacity, whether they end in success or in an error. -/
theorem writeWords_frame {s : State} (bytes : List Byte) (k : Nat) (hm : s.mem.Within s.config.memSize) :
    (∀ t, writeWords bytes k s = .ok t → SameControl s t ∧ t.mem.Within t.config.memSize) ∧
      ∀ e t, writeWords bytes k s = .error (e, t) → SameControl s t ∧ t.mem.Within t.config.memSize := by
  refine writeWords_keeps (P := fun u => SameControl s u ∧ u.mem.Within u.config.memSize) ?_ bytes k
    ⟨⟨rfl, rfl, rfl, rfl, rfl, rfl⟩, hm⟩
  rintro u t a v ⟨hctl, hmem⟩ hw
  obtain ⟨-, -, -, -, -, hconfig⟩ := memWrite_sameControl hw
  exact ⟨hctl.trans (memWrite_sameControl hw), hconfig ▸ memWrite_within hw hmem⟩

/-- A load keeps the invariant: its window closes on the descriptors of R35, and a load that fails poisons the machine. -/
theorem WellKept.loadProgram {bytes : List Byte} {s t : State} {r : Reply} (h : WellKept s) (hp : s.poisoned = false)
    (hl : s.loaded = false) (hr : Machine.loadProgram bytes s = .ok (r, t)) : WellKept t := by
  obtain ⟨len, hprog, hzero⟩ := h.program hp
  cases hzero hl
  have hframe := writeWords_frame (s := { s with regions := s.regions.inWindow bytes.length }) bytes 0 h.within
  rcases loadProgram_cases hr with rfl | ⟨hlen, u, hu, rfl⟩ | ⟨e, u, hu, rfl⟩
  · exact h
  · obtain ⟨⟨hpc, hflags, hregions, -, -, hconfig⟩, hmem⟩ := hframe.1 u hu
    obtain ⟨-, hsz, -⟩ := h.config
    have hfit := writeWords_ok_fits hu hlen (Nat.zero_le _) hsz
    refine h.of_program hpc hflags hconfig (hconfig ▸ hmem) fun _ => ⟨bytes.length, ⟨hlen, ?_, ?_⟩, nofun⟩
    · simpa [hconfig] using hfit
    · simp only [hregions, hconfig, hprog.regions, closed_inWindow_afterLoad]
  · obtain ⟨⟨hpc, hflags, -, -, -, hconfig⟩, hmem⟩ := hframe.2 e u hu
    exact h.of_program hpc hflags hconfig (hconfig ▸ hmem) nofun

/-! ## Every host operation -/

/-- An operation with a meaning is a reset or is done on a machine that is not poisoned (R193). -/
theorem perform_ok {op : Operation} {s : State} {x : Reply × State} (h : perform op s = .ok x) :
    performReady op s = .ok x ∧ (op = .reset ∨ s.poisoned = false) := by
  unfold perform at h
  split at h
  · cases h
  · next hready =>
    refine ⟨h, ?_⟩
    simpa [imp_iff_not_or, or_comm] using hready

theorem WellKept.perform {op : Operation} {s t : State} {r : Reply} (h : WellKept s)
    (hr : Machine.perform op s = .ok (r, t)) : WellKept t := by
  obtain ⟨hr, hready⟩ := perform_ok hr
  cases op with
  | reset => cases hr; exact wellKept_resetWith h.config
  | load bytes =>
    have hp : s.poisoned = false := by simpa using hready
    simp only [performReady] at hr
    split at hr
    · cases hr
    · next hl => exact h.loadProgram hp (by simpa using hl) hr
  | step => exact h.step_reply hr
  | run => exact h.run_reply hr
  | readReg r => cases hr; exact h
  | memRead a w => exact query_state hr ▸ h
  | memWrite a w v =>
    simp only [performReady] at hr
    split at hr
    · next u hu => cases hr; exact h.memWrite hu
    · cases hr; exact h
  | alignCheck w a => exact query_state hr ▸ h
  | stackStart => cases hr; exact h

end Sys2Proof.Machine

namespace Sys2Proof

open Machine

/-- Settles O48, operation by operation: the steps of O47 and what their errors leave, the checked write, the load, the reset. -/
theorem hostOperationsKeepTheInvariant : Obligations.HostOperationsKeepTheInvariant :=
  fun _ _ _ _ h hr => h.perform hr

/-- Settles O55: the load window lets every word through the checker, and closing it leaves the descriptors R191 lists. -/
theorem loadInstallsTheProgram : Obligations.LoadInstallsTheProgram := by
  intro s bytes hc hp hl hlen hfit
  obtain ⟨-, hsz, -⟩ := hc
  obtain ⟨m, hload, hin, hout⟩ := loadProgram_fits hlen hfit hsz
  have hperform : perform (.load bytes) s = loadProgram bytes s := by simp [perform, performReady, hp, hl]
  refine ⟨_, hperform.trans hload, hin, hout, fun hpos => ?_, fun hzero => ?_,
    rfl, rfl, rfl, rfl, rfl, hp, fun _ => rfl, rfl, rfl, rfl, rfl⟩
  · simp only [Regions.closed, Regions.inWindow, if_neg (Nat.ne_of_gt hpos), BitVec.toNat_ofNat]
    refine ⟨rfl, ?_, ?_, ?_, ?_, ?_⟩ <;> omega
  · simp only [Regions.closed, Regions.inWindow, if_pos hzero]
    exact ⟨trivial, trivial, trivial, trivial⟩

end Sys2Proof
end

section
/-! SUPPORT. The codec under a table of layouts (R26, R63, R72, R73): where each field starts, and that decode and encode use it there. -/

namespace Sys2Proof

open Machine

/-- A field starts where the fields declared before it end (R63). -/
theorem fieldOffset_append {before after : List Field} {f : Field} (o : Nat)
    (hn : ((before ++ f :: after).map Field.role).Nodup) : fieldOffset o (before ++ f :: after) f.role = o + widths before := by
  induction before generalizing o with
  | nil => simp [fieldOffset, widths]
  | cons g before ih =>
    obtain ⟨hg, hn⟩ := List.nodup_cons.1 hn
    have hne := role_ne hg (List.mem_append_right before (List.mem_cons_self (a := f) (l := after)))
    rw [List.cons_append, fieldOffset, if_neg hne, ih _ hn]
    simp [widths, Nat.add_assoc]

/-- The operand a field of R64 takes from an operand list when the instruction is built. -/
def Field.operand (f : Field) (ops : List (Role × Operand)) : Operand :=
  match f.kind with
  | .register => .reg (regOperand ops f.role)
  | .immediate _ => .imm (immOperand ops)

/-- An instruction built from an operand list holds one operand for each field of R64, in the order given there. -/
theorem operands_ofOperands (ops : List (Role × Operand)) (k : Mnemonic) :
    (Instr.ofOperands ops k).operands = (defaultLayouts.layout k).map fun f => (f.role, f.operand ops) := by
  cases k <;> rfl

theorem ofOperands_operands (i : Instr) : Instr.ofOperands i.operands i.mnemonic = i := by
  cases i <;> rfl

theorem lookup_map_role {l : List Field} (g : Field → Operand) (hn : (l.map Field.role).Nodup) {f : Field} (hf : f ∈ l) :
    (l.map fun x => (x.role, g x)).lookup f.role = some (g f) := by
  induction l with
  | nil => cases hf
  | cons x l ih =>
    obtain ⟨hx, hn⟩ := List.nodup_cons.1 hn
    rcases List.mem_cons.1 hf with rfl | hf
    · simp
    · have hne : (f.role == x.role) = false := beq_false_of_ne (role_ne hx hf).symm
      rw [List.map_cons, List.lookup_cons, hne]
      exact ih hn hf

theorem defaultLayouts_valid : defaultLayouts.Valid := fun _ _ => .refl _

theorem lookup_operands_ofOperands (ops : List (Role × Operand)) {k : Mnemonic} {f : Field}
    (hf : f ∈ defaultLayouts.layout k) : (Instr.ofOperands ops k).operands.lookup f.role = some (f.operand ops) := by
  rw [operands_ofOperands]
  exact lookup_map_role (fun x => x.operand ops) (defaultLayouts_valid.nodup k) hf

/-- The immediate of a layout plays the part `imm`, the only one an immediate is looked up by (R64). -/
theorem register_or_imm {k : Mnemonic} : ∀ f ∈ defaultLayouts.layout k, f.kind = .register ∨ f.role = .imm := by
  cases k <;> decide

/-- An operand read by a field's kind is taken over unchanged. -/
theorem Field.operand_eq_read {ops : List (Role × Operand)} {f : Field} {b : Nat} (hf : f.kind = .register ∨ f.role = .imm)
    (h : ops.lookup f.role = some (f.kind.read b)) : f.operand ops = f.kind.read b := by
  obtain ⟨r, kind⟩ := f
  cases kind with
  | register =>
    simp only [FieldKind.read] at h
    simp only [Field.operand, FieldKind.read, regOperand, h]
  | immediate n =>
    obtain rfl : r = .imm := by simpa using hf
    simp only [FieldKind.read] at h
    simp only [Field.operand, FieldKind.read, immOperand, h]

/-- Every operand of a decoded instruction is the reading of its field (R72). -/
theorem lookup_operands_of_decode {c : Codec} (hv : c.layouts.Valid) {w : Word} {i : Instr} (h : decode c w = .ok i)
    {f : Field} (hf : f ∈ c.layouts.layout i.mnemonic) :
    i.operands.lookup f.role = some (f.kind.read (fieldAt c i.mnemonic f.role f.kind.width w)) := by
  obtain ⟨k, -, rfl⟩ := decode_ok_iff.1 h
  rw [decodeAs, Instr.mnemonic_ofOperands] at hf ⊢
  have hf' := hv.mem_iff.1 hf
  rw [lookup_operands_ofOperands _ hf',
    Field.operand_eq_read (register_or_imm f hf') (lookup_unpackFields w 8 (hv.nodup k) hf)]
  rfl

/-- Every field of an encoded word holds the bits of the operand that plays its part (R73). -/
theorem fieldAt_encode_operand {c : Codec} (hv : c.layouts.Valid) {i : Instr} {f : Field}
    (hf : f ∈ c.layouts.layout i.mnemonic) : ∃ x, i.operands.lookup f.role = some x ∧
      fieldAt c i.mnemonic f.role f.kind.width (encode c i) = x.bits f.kind.width := by
  have hf' := hv.mem_iff.1 hf
  have hx := lookup_operands_ofOperands i.operands hf'
  rw [ofOperands_operands] at hx
  exact ⟨_, hx, by rw [fieldAt_encode hv i hf', Field.bits, hx]⟩

/-- The widths of R81: a reordering takes as many bits as the layout of R64. -/
theorem eight_add_widths {c : Codec} (hv : c.layouts.Valid) (k : Mnemonic) : 8 + widths (c.layouts.layout k) =
    if k ∈ [Mnemonic.addI, .lui, .lw, .sw, .li] then 32 else if k = .syscall then 8 else 23 := by
  rw [hv.widths_eq]
  cases k <;> rfl

/-- Settles O12: legal layouts are reorderings of those of R64, whose roles differ, so each role names one field. -/
theorem codecFollowsTheLayoutTable : Obligations.CodecFollowsTheLayoutTable := by
  rintro c ⟨-, hv⟩
  refine ⟨eight_add_widths hv, fun k before f after hl => ?_, fun w i h f hf => lookup_operands_of_decode hv h hf,
    fun i f hf => fieldAt_encode_operand hv hf⟩
  have hn := hv.nodup k
  rw [hl] at hn
  rw [placeOf, hl, fieldOffset_append 8 hn]

end Sys2Proof
end

section
/-! SUPPORT. The family `20_memory.md`: which region owns an address (R33 to R37), what the checked accesses answer (R40, R41, R44,
R55, R56), what a step can change in memory, how many steps fit it (R96), and what the host is answered (R198 to R201). -/

namespace Sys2Proof.Machine

/-! ## The owner of an address -/

/-- The scan of R34, written out. -/
theorem Regions.owner_eq (rs : Regions) (a : Word) :
    rs.owner a =
      if rs.code.owns a then some .code
      else if rs.data.owns a then some .data
      else if rs.heap.owns a then some .heap
      else if rs.stack.owns a then some .stack
      else none := by
  split_ifs with hcode hdata hheap hstack <;> simp [Regions.owner, RegionKind.scanOrder, Regions.region, *]

@[simp] theorem Region.owns_iff {r : Region} {a : Word} :
    r.owns a = true ↔ r.start.toNat ≤ a.toNat ∧ a.toNat ≤ r.last.toNat := by
  simp [Region.owns]

theorem stackLow_toNat {c : Config} (hc : c.Valid) : c.stackLow.toNat = c.memSize - c.stackSize := by
  obtain ⟨-, hsz, -⟩ := hc
  rw [Config.stackLow, BitVec.toNat_ofNat, Nat.mod_eq_of_lt (by omega)]

theorem stackTop_toNat {c : Config} (hc : c.Valid) : c.stackTop.toNat = c.memSize - 1 := by
  obtain ⟨-, hsz, -⟩ := hc
  rw [Config.stackTop, BitVec.toNat_ofNat, Nat.mod_eq_of_lt (by omega)]

/-- The map of R37 for every length: Code takes address 0 when no program is loaded, and Heap lies on Data's one byte (D13). -/
theorem HasProgram.owner_eq {s : State} {len : Nat} {a : Word} (h : HasProgram s len) (hc : s.config.Valid)
    (ha : a.toNat < s.config.memSize) :
    s.regions.owner a =
      if a.toNat ≤ len - 1 then some .code
      else if a.toNat = len then some .data
      else if s.config.memSize - s.config.stackSize ≤ a.toNat then some .stack
      else none := by
  have hstack : s.config.stackLow.toNat ≤ a.toNat ∧ a.toNat ≤ s.config.stackTop.toNat ↔
      s.config.memSize - s.config.stackSize ≤ a.toNat := by
    rw [stackLow_toNat hc, stackTop_toNat hc]; omega
  obtain ⟨-, hsz, -⟩ := hc
  have hfits := h.fits
  have hcode : (0 : Word).toNat ≤ a.toNat ∧ a.toNat ≤ (BitVec.ofNat 32 (len - 1)).toNat ↔ a.toNat ≤ len - 1 := by
    simp only [BitVec.reduceToNat, BitVec.toNat_ofNat]; omega
  have hdata : (BitVec.ofNat 32 len).toNat ≤ a.toNat ∧ a.toNat ≤ (BitVec.ofNat 32 len).toNat ↔ a.toNat = len := by
    rw [BitVec.toNat_ofNat]; omega
  rw [h.regions, Regions.owner_eq]
  simp only [Regions.afterLoad, Region.owns_iff, hcode, hdata, hstack]
  split_ifs <;> rfl

/-- Outside the load window a program can write nowhere but in the Stack, above the byte Data keeps (R22, R35). -/
theorem HasProgram.writable {s : State} {len : Nat} {a : Word} {k : RegionKind} (h : HasProgram s len) (hc : s.config.Valid)
    (ha : a.toNat < s.config.memSize) (ho : s.regions.owner a = some k)
    (hw : (s.regions.region k).perms.allows .write = true) :
    s.config.memSize - s.config.stackSize ≤ a.toNat ∧ len < a.toNat := by
  have hcode : (s.regions.region .code).perms.allows .write = false := by rw [h.regions]; rfl
  have hdata : (s.regions.region .data).perms.allows .write = false := by rw [h.regions]; rfl
  rw [h.owner_eq hc ha] at ho
  split_ifs at ho with hincode hindata hinstack <;> cases ho
  · simp [hcode] at hw
  · simp [hdata] at hw
  · exact ⟨hinstack, by omega⟩

/-! ## The bytes of a checked access -/

theorem two_pow_eight_mul (i : Nat) : 2 ^ (8 * i) = 256 ^ i := pow_mul 2 8 i

/-- The little-endian value as the sum of R32. -/
theorem Memory.readLE_eq_sum (m : Memory) (a n : Nat) :
    m.readLE a n = ((List.range n).map fun i => 256 ^ i * (m.get (a + i)).toNat).sum := by
  induction n generalizing a with
  | zero => rfl
  | succ n ih =>
    have hshift (i : Nat) : 256 ^ (i + 1) * (m.get (a + (i + 1))).toNat = 256 * (256 ^ i * (m.get (a + 1 + i)).toNat) := by
      rw [pow_succ', Nat.mul_assoc, Nat.add_right_comm, Nat.add_assoc]
    rw [Memory.readLE, ih, List.range_succ_eq_map, List.map_cons, List.sum_cons, List.map_map, ← List.sum_map_mul_left]
    simp only [Function.comp_def, Nat.succ_eq_add_one, hshift, pow_zero, Nat.one_mul, Nat.add_zero]

/-- A narrower read inside a value just written sees its part of the value (R32). -/
theorem Memory.readLE_writeLE_inside (m : Memory) (a v : Nat) {n i k : Nat} (h : i + k ≤ n) :
    (m.writeLE a n v).readLE (a + i) k = v / 256 ^ i % 256 ^ k :=
  Memory.readLE_of_bytes fun j hj => by
    rw [Nat.add_assoc, Memory.get_writeLE_inside (by omega), BitVec.toNat_ofNat, pow_add, Nat.div_div_eq_div_mul]

theorem memRead_value {s : State} {a u : Word} {w : Width} (h : memRead s a w = .ok u) :
    u.toNat = s.mem.readLE a.toNat w.bytes := by
  obtain ⟨-, rfl⟩ := memRead_ok_iff.1 h
  exact toNat_ofNat_readLE s.mem a.toNat w

/-- A read that fits, of an owned address whose owner grants Read, gives the bytes' value (R40). -/
theorem exists_memRead {s : State} {a : Word} {w : Width} {k : RegionKind} (hfit : a.toNat + w.bytes ≤ s.config.memSize)
    (ho : s.regions.owner a = some k) (hp : (s.regions.region k).perms.read = true) :
    ∃ u, memRead s a w = .ok u ∧ u.toNat = s.mem.readLE a.toNat w.bytes :=
  ⟨_, memRead_ok_iff.2 ⟨checkAccess_ok_iff.2 ⟨hfit, k, ho, hp⟩, rfl⟩, toNat_ofNat_readLE s.mem a.toNat w⟩

/-- A write that succeeds lies inside the memory (R38) and writes its bytes there. -/
theorem memWrite_fits {s t : State} {a v : Word} {w : Width} (h : memWrite s a w v = .ok t) :
    a.toNat + w.bytes ≤ t.config.memSize ∧ t.mem = s.mem.writeLE a.toNat w.bytes v.toNat := by
  obtain ⟨hok, rfl⟩ := memWrite_ok_iff.1 h
  exact ⟨(checkAccess_ok_iff.1 hok).1, rfl⟩

/-- What is read inside the bytes just written, the address not wrapping (R32, R42). -/
theorem memRead_memWrite_inside {s t : State} {a v u : Word} {w w' : Width} {i : Nat} (hsz : s.config.memSize < 2 ^ 32)
    (hw : memWrite s a w v = .ok t) (hi : i + w'.bytes ≤ w.bytes) (hr : memRead t (a + BitVec.ofNat 32 i) w' = .ok u) :
    u.toNat = v.toNat / 256 ^ i % 256 ^ w'.bytes := by
  obtain ⟨hok, rfl⟩ := memWrite_ok_iff.1 hw
  have hfit := (checkAccess_ok_iff.1 hok).1
  have haddr : (a + BitVec.ofNat 32 i).toNat = a.toNat + i := by
    rw [BitVec.toNat_add, BitVec.toNat_ofNat]; omega
  rw [memRead_value hr, haddr]
  exact Memory.readLE_writeLE_inside s.mem a.toNat v.toNat hi

/-- Byte `i` of the value written (R41). -/
theorem memWrite_byteAt_inside {s t : State} {a v : Word} {w : Width} {i : Nat} (h : memWrite s a w v = .ok t)
    (hi : i < w.bytes) : (t.byteAt (a.toNat + i)).toNat = v.toNat / 256 ^ i % 256 := by
  obtain ⟨-, rfl⟩ := memWrite_ok_iff.1 h
  rw [State.byteAt, Memory.get_writeLE_inside hi, BitVec.toNat_ofNat]

theorem memWrite_byteAt_outside {s t : State} {a v : Word} {w : Width} {b : Nat} (h : memWrite s a w v = .ok t)
    (hb : b < a.toNat ∨ a.toNat + w.bytes ≤ b) : t.byteAt b = s.byteAt b := by
  obtain ⟨-, rfl⟩ := memWrite_ok_iff.1 h
  exact Memory.get_writeLE_outside hb

/-- A checked write changes no register, not `halt` and nothing of the control state (R41). -/
theorem memWrite_frame {s t : State} {a v : Word} {w : Width} (h : memWrite s a w v = .ok t) :
    SameRegisters s t ∧ t.halt = s.halt ∧ SameControl s t := by
  refine ⟨?_, ?_, memWrite_sameControl h⟩ <;> obtain ⟨-, rfl⟩ := memWrite_ok_iff.1 h
  · exact fun _ => rfl
  · rfl

theorem memWrite_storedWord {s t : State} {a v : Word} (h : memWrite s a .word v = .ok t) : StoredWord a v s t :=
  ⟨fun _ hi => memWrite_byteAt_inside h hi, fun _ hb => memWrite_byteAt_outside h hb⟩

/-! ## What an instruction and a step change in memory -/

theorem storeWord_of_exec_sw {rd rs : Reg} {imm : Int} {s t : State} (h : exec (.sw rd rs imm) s = .next t) :
    storeWord s (effectiveAddress s rd imm) (s.readReg rs) = .ok t := by
  rcases exec_next_cases h with ⟨_, _, -, -, hsw⟩ | ⟨hsys, -⟩ | ⟨rd', rs', imm', heq, hst⟩
  · exact absurd rfl (hsw rd rs imm)
  · cases hsys
  · cases heq; exact hst

/-- A byte changes only where an aligned word that holds it was stored through the checker. -/
theorem exec_next_byte_changed {i : Instr} {s t : State} {a : Nat} (h : exec i s = .next t) (ha : t.byteAt a ≠ s.byteAt a) :
    ∃ e v : Word, storeWord s e v = .ok t ∧ e.toNat ≤ a ∧ a < e.toNat + 4 := by
  rcases exec_next_cases h with ⟨rd, v, rfl, -⟩ | ⟨-, rfl⟩ | ⟨rd, rs, imm, -, hst⟩
  · exact absurd rfl ha
  · exact absurd rfl ha
  · refine ⟨_, _, hst, ?_⟩
    obtain ⟨-, hw⟩ := storeWord_ok_iff.1 hst
    by_contra hout
    exact ha (memWrite_byteAt_outside hw (by simp only [Width.bytes]; omega))

/-- The word a store reaches on the machine of a program of `len` bytes: inside the memory, in the Stack, and past the word after
the code, since both `len` and the address are multiples of 4 (R37, R50, R133). -/
theorem HasProgram.storeWord_range {s t : State} {len : Nat} {e v : Word} (h : HasProgram s len) (hc : s.config.Valid)
    (hst : storeWord s e v = .ok t) :
    s.config.memSize - s.config.stackSize ≤ e.toNat ∧ e.toNat + 4 ≤ s.config.memSize ∧ len + 4 ≤ e.toNat := by
  obtain ⟨haligned, hw⟩ := storeWord_ok_iff.1 hst
  obtain ⟨hfit, k, howner, hperm⟩ := checkAccess_ok_iff.1 (memWrite_ok_iff.1 hw).1
  simp only [Width.bytes] at hfit
  obtain ⟨hstack, hlt⟩ := h.writable hc (by omega) howner hperm
  have hmul := h.multiple
  exact ⟨hstack, hfit, by omega⟩

/-! ## Several steps -/

/-- `k + 1` steps that complete: one that does, then `k` from where it leads. -/
theorem core_run_succ_next {M : Host.Core} {k : Nat} {s t : M.State} (h : M.run (k + 1) s = .next t) :
    ∃ u, M.step s = .next u ∧ M.run k u = .next t := by
  rw [Host.Core.run] at h
  split at h
  · next u hu => exact ⟨u, hu, h⟩
  · cases h
  · cases h

/-! ## Host operations on a machine that is not poisoned -/

theorem perform_ready {s : State} (hp : s.poisoned = false) (op : Operation) : perform op s = performReady op s := by
  simp [perform, hp]

end Sys2Proof.Machine

namespace Sys2Proof

open Machine

/-- Settles O14: the scan of R34 with each containment as its two bounds (R33). -/
theorem firstMatchingRegionOwns : Obligations.FirstMatchingRegionOwns := by
  intro rs a
  simp only [Regions.owner_eq, Region.owns_iff]

/-- Settles O21: the map of R37 at a positive length and at length 0. -/
theorem ownersFollowTheMap : Obligations.OwnersFollowTheMap := by
  intro s len a hc h ha
  rw [h.owner_eq hc ha]
  refine ⟨fun hpos => ?_, fun hzero => ?_, ?_⟩
  · have hcode : a.toNat ≤ len - 1 ↔ a.toNat < len := by omega
    simp only [hcode]
  · subst hzero
    simp only [Nat.zero_sub, Nat.le_zero]
    split_ifs <;> rfl
  · split_ifs <;> simp

/-- Settles O15: the checks of R38, R34 and R39 in their order, then the sum of R32. -/
theorem checkedReadsFollowTheRule : Obligations.CheckedReadsFollowTheRule := by
  refine fun s a w => ⟨fun h => memRead_error_iff.2 (checkAccess_outOfBounds h), fun hfit =>
    ⟨fun ho => memRead_error_iff.2 (checkAccess_unowned hfit ho), fun k ho =>
      ⟨fun hp => memRead_error_iff.2 (checkAccess_denied hfit ho hp), fun hp => ?_⟩⟩⟩
  obtain ⟨u, hread, hvalue⟩ := exists_memRead hfit ho hp
  refine ⟨u, hread, ?_⟩
  rw [hvalue, Memory.readLE_eq_sum]
  simp only [two_pow_eight_mul, State.byteAt]

/-- Settles O16: the same checks for Write, then the bytes of R41 and the frame of a checked write. -/
theorem checkedWritesFollowTheRule : Obligations.CheckedWritesFollowTheRule := by
  refine fun s a w v => ⟨fun h => memWrite_error_iff.2 (checkAccess_outOfBounds h), fun hfit =>
    ⟨fun ho => memWrite_error_iff.2 (checkAccess_unowned hfit ho), fun k ho =>
      ⟨fun hp => memWrite_error_iff.2 (checkAccess_denied hfit ho hp), fun hp => ?_⟩⟩⟩
  have hwrite := memWrite_ok_iff (v := v).2 ⟨checkAccess_ok_iff.2 ⟨hfit, k, ho, hp⟩, rfl⟩
  refine ⟨_, hwrite, fun i hi => ?_, fun b hb => memWrite_byteAt_outside hwrite hb, memWrite_frame hwrite⟩
  rw [two_pow_eight_mul]
  exact memWrite_byteAt_inside hwrite hi

/-- Settles O17: the write has passed the capacity check, and the bytes read are those it put there. -/
theorem readAfterWriteGivesTheValue : Obligations.ReadAfterWriteGivesTheValue := by
  intro s t a w v k hw howner hperm
  obtain ⟨hfit, hmem⟩ := memWrite_fits hw
  obtain ⟨u, hread, hvalue⟩ := exists_memRead hfit howner hperm
  refine ⟨u, hread, ?_⟩
  rw [hvalue, hmem, two_pow_eight_mul, Memory.readLE_writeLE]

/-- Settles O18: both reads lie inside the word just written. -/
theorem narrowReadsSeeLittleEndianParts : Obligations.NarrowReadsSeeLittleEndianParts := by
  rintro s t a v u ⟨-, hsz, -⟩ hw
  constructor
  · exact fun i hi hr => memRead_memWrite_inside hsz hw (w' := .byte) (by simp only [Width.bytes]; omega) hr
  · exact fun i hi hr => memRead_memWrite_inside hsz hw (w' := .half) (by simp only [Width.bytes]; omega) hr

/-- Settles O19, size by size and by the test of R44. -/
theorem alignmentCheckFollowsTheRule : Obligations.AlignmentCheckFollowsTheRule :=
  fun w _ => ⟨by cases w <;> decide, fun h => if_pos h, fun h => if_neg h⟩

/-- Settles O20: the permission check fails; after reset it is Code, without Write, that owns address 0. -/
theorem writeToZeroBeforeLoadIsDenied : Obligations.WriteToZeroBeforeLoadIsDenied := by
  constructor
  · exact fun s a w v k hfit ho hp => memWrite_error_iff.2 (checkAccess_denied hfit ho hp)
  · intro c w v _ hfit
    have howner : (State.resetWith c).regions.owner 0 = some .code := owner_eq_code rfl (Nat.zero_le _)
    exact memWrite_error_iff.2 (checkAccess_denied (by simpa using hfit) howner rfl)

/-- Settles O38: an `Sw` that completes is one checked write of a word at its effective address. -/
theorem storeWordChangesOnlyItsFourBytes : Obligations.StoreWordChangesOnlyItsFourBytes := by
  rintro rd rs imm s t a h rfl
  obtain ⟨-, hw⟩ := storeWord_ok_iff.1 (storeWord_of_exec_sw h)
  exact ⟨memWrite_storedWord hw, memWrite_frame hw⟩

/-- Settles O49: the byte belongs to an aligned word stored where Write is granted, and only the Stack beyond Data grants it. -/
theorem programsWriteOnlyTheStack : Obligations.ProgramsWriteOnlyTheStack := by
  intro s t len a hkept hprog hstep hchanged
  obtain ⟨-, w, i, -, -, hexec⟩ := step_next_cases hstep
  obtain ⟨e, v, hst, hle, hlt⟩ := exec_next_byte_changed hexec (by simpa using hchanged)
  have hadv : HasProgram s.advance len := hprog.congr rfl rfl
  obtain ⟨hstack, hfit, hcode⟩ := hadv.storeWord_range hkept.config hst
  rw [advance_config] at hstack hfit
  omega

/-- A run of completed steps moves `pc` by 4 a step and, once it has moved, stays within the memory (R95, R96). -/
theorem core_run_next_pc {s t : State} {k : Nat} (hc : s.config.Valid) (h : Sys2Proof.core.run k s = .next t) :
    t.pc.toNat = s.pc.toNat + 4 * k ∧ (0 < k → t.pc.toNat ≤ s.config.memSize) := by
  induction k generalizing s with
  | zero => cases h; exact ⟨rfl, nofun⟩
  | succ k ih =>
    obtain ⟨u, hstep, hrun⟩ := core_run_succ_next h
    obtain ⟨hpc, hin⟩ := pcAdvancesByFour s u hc hstep
    obtain ⟨-, -, -, -, hconfig⟩ := stepsLeaveTheControlState s u hstep
    obtain ⟨hpc', hin'⟩ := ih (hconfig ▸ hc) hrun
    rw [hconfig] at hin'
    exact ⟨by omega, fun _ => by omega⟩

/-- Settles O54: after `k` steps `pc` has moved by `4k` and still lies within the memory. -/
theorem stepsAreBoundedByTheMemory : Obligations.StepsAreBoundedByTheMemory := by
  intro s t k hc h
  obtain ⟨hpc, hin⟩ := core_run_next_pc hc h
  exact ⟨hpc, by omega⟩

/-- Settles O59, operation by operation: on a machine that is not poisoned each is done as asked. -/
theorem hostOperationsAnswer : Obligations.HostOperationsAnswer := by
  intro s hp
  have hready := perform_ready hp
  have hread a w := hready (.memRead a w)
  have hwrite a w v := hready (.memWrite a w v)
  have halign a w := hready (.alignCheck w a)
  simp only [performReady] at hread hwrite halign
  refine ⟨fun r => hready (.readReg r), fun hc => ⟨_, hready .stackStart, stackTop_toNat hc⟩,
    fun a w v h => ?_, fun a w e h => ?_, fun a w v t h => ?_, fun a w v e h => ?_, fun a w h => ?_, fun a w e h => ?_,
    fun t h => ?_, fun e t h => ?_, fun t h => ?_, fun e t h => ?_⟩
  · rw [hread, h]; rfl
  · rw [hread, h]; rfl
  · rw [hwrite, h]
  · rw [hwrite, h]
  · rw [halign, h]; rfl
  · rw [halign, h]; rfl
  · exact (hready .step).trans (congrArg outcomeReply h)
  · exact (hready .step).trans (congrArg outcomeReply h)
  · exact (hready .run).trans (congrArg outcomeReply h)
  · exact (hready .run).trans (congrArg outcomeReply h)

end Sys2Proof
end

section
/-! SUPPORT. The operands of the encoding: the immediates as two's-complement numbers (R69 to R71), the clamp (R68), and the fields an
instruction's operands stand in (R64). -/

namespace Sys2Proof

open Machine

/-! ## Immediates -/

/-- The sign reconstruction of R71 is the two's-complement reading of the field. -/
theorem fromBits_eq_toInt {n : Nat} (b : BitVec n) : fromBits n b = b.toInt := by
  rw [BitVec.toInt_eq_msb_cond, BitVec.msb_eq_getLsbD_last, fromBits]
  norm_cast

theorem immFits_fromBits {n : Nat} (b : BitVec n) : ImmFits n (fromBits n b) := by
  rw [fromBits_eq_toInt]
  exact ⟨b.le_toInt, Int.le_sub_one_of_lt BitVec.toInt_lt⟩

@[simp] theorem toBits_fromBits {n : Nat} (b : BitVec n) : toBits n (fromBits n b) = b := by
  rw [fromBits_eq_toInt, toBits, BitVec.ofInt_toInt]

theorem fromBits_toBits {n : Nat} (hn : 0 < n) {v : Int} (h : ImmFits n v) : fromBits n (toBits n v) = v := by
  obtain ⟨hmin, hmax⟩ := h
  rw [fromBits_eq_toInt, toBits, BitVec.toInt_ofInt_eq_self hn hmin (Int.lt_of_le_sub_one hmax)]

/-- Packing is reduction modulo 2^N (R70). -/
theorem toBits_toNat (n : Nat) (v : Int) : ((toBits n v).toNat : Int) = v % 2 ^ n := by
  rw [toBits, BitVec.toNat_ofInt, Int.toNat_of_nonneg (Int.emod_nonneg v (by positivity))]
  norm_cast

theorem newImmediate_of_fits {n : Nat} {v : Int} (h : ImmFits n v) : newImmediate n v = .ok v := if_pos h

theorem newImmediate_of_not_fits {n : Nat} {v : Int} (h : ¬ ImmFits n v) :
    newImmediate n v = .error (.immediateOutOfRange v n) := if_neg h

/-! ## The clamp -/

theorem regdec_of_le {b : BitVec 5} (h : b.toNat ≤ 16) : (regdec b).val = b.toNat := by
  by_cases hpos : 1 ≤ b.toNat
  · rw [regdec, dif_pos ⟨hpos, h⟩]
  · rw [regdec, dif_neg (by omega)]
    exact (Nat.lt_one_iff.1 (Nat.not_le.1 hpos)).symm

theorem regdec_of_gt {b : BitVec 5} (h : 16 < b.toNat) : regdec b = regZero := dif_neg (by omega)

theorem regenc_toNat (r : Reg) : (regenc r).toNat = r.val := by
  rw [regenc, BitVec.toNat_ofNat]
  omega

@[simp] theorem regdec_regenc (r : Reg) : regdec (regenc r) = r := by
  have hr := r.is_le
  ext
  rw [regdec_of_le (by rwa [regenc_toNat]), regenc_toNat]

/-! ## An instruction and its operands -/

/-- The immediate of an instruction is the operand of the immediate field of R64. -/
theorem Instr.immediate_eq_some_iff {i : Instr} {n : Nat} {v : Int} :
    i.immediate = some (n, v) ↔ ⟨.imm, .immediate n⟩ ∈ defaultLayouts.layout i.mnemonic ∧ immOperand i.operands = v := by
  cases i with
  | addI | lw | sw | lui | li =>
    simp [Instr.immediate, Instr.mnemonic, Instr.operands, immOperand, List.lookup, LayoutTable.layout, defaultLayouts,
      layoutI, layoutU, Field.reg, Field.immediate, eq_comm]
  | add | sub | mul | and | or | xor | shl | shr | shrA | syscall =>
    simp [Instr.immediate, Instr.mnemonic, LayoutTable.layout, defaultLayouts, layoutR, Field.reg]

theorem width_pos {k : Mnemonic} : ∀ f ∈ defaultLayouts.layout k, 0 < f.kind.width := by
  cases k <;> decide

theorem Field.operand_congr {f : Field} {ops ops' : List (Role × Operand)} (hf : f.kind = .register ∨ f.role = .imm)
    (h : ops.lookup f.role = ops'.lookup f.role) : f.operand ops = f.operand ops' := by
  obtain ⟨r, kind⟩ := f
  cases kind with
  | register => simp only [Field.operand, regOperand, h]
  | immediate n =>
    obtain rfl : r = .imm := by simpa using hf
    simp only [Field.operand, immOperand, h]

theorem Instr.operands_eq_map (i : Instr) :
    i.operands = (defaultLayouts.layout i.mnemonic).map fun f => (f.role, f.operand i.operands) := by
  rw [← operands_ofOperands, ofOperands_operands]

/-- The operand an instruction holds for a field of R64. -/
theorem Instr.lookup_operands (i : Instr) {f : Field} (hf : f ∈ defaultLayouts.layout i.mnemonic) :
    i.operands.lookup f.role = some (f.operand i.operands) := by
  simpa only [ofOperands_operands] using lookup_operands_ofOperands i.operands hf

/-- An instruction is its mnemonic with the operands of its fields. -/
theorem Instr.ext_operands {i j : Instr} (hk : i.mnemonic = j.mnemonic)
    (h : ∀ f ∈ defaultLayouts.layout i.mnemonic, i.operands.lookup f.role = j.operands.lookup f.role) : i = j := by
  have hops : i.operands = j.operands := by
    rw [i.operands_eq_map, j.operands_eq_map, ← hk]
    exact List.map_congr_left fun f hf => by rw [Field.operand_congr (register_or_imm f hf) (h f hf)]
  rw [← ofOperands_operands i, ← ofOperands_operands j, hops, hk]

/-- The reading of an operand's bits is the operand, an immediate being in range (R66, R68, R71). -/
theorem read_bits_operand {i : Instr} (hi : WellFormed i) {f : Field} (hf : f ∈ defaultLayouts.layout i.mnemonic) :
    f.kind.read ((f.operand i.operands).bits f.kind.width) = f.operand i.operands := by
  have hshape := register_or_imm f hf
  have hpos := width_pos f hf
  obtain ⟨r, kind⟩ := f
  cases kind with
  | register =>
    simp only [Field.operand, FieldKind.width, Operand.bits_reg, FieldKind.read]
    rw [← regenc, regdec_regenc]
  | immediate n =>
    obtain rfl : r = .imm := by simpa using hshape
    have hfits := wellFormed_iff.1 hi n _ (Instr.immediate_eq_some_iff.2 ⟨hf, rfl⟩)
    simp only [Field.operand, FieldKind.width, Operand.bits_imm, FieldKind.read, BitVec.ofNat_toNat, BitVec.setWidth_eq]
    exact congrArg Operand.imm (fromBits_toBits hpos hfits)

/-- The bits of what a field reads are the field's own: always in an immediate field, and in a register field up to 16, where
the clamp does not act (R68, R71). -/
theorem bits_read_eq_iff {k : FieldKind} {b : Nat} (hb : b < 2 ^ k.width) :
    (k.read b).bits k.width = b ↔ k = .register → b ≤ 16 := by
  cases k with
  | register =>
    have hmod : (BitVec.ofNat 5 b).toNat = b := Nat.mod_eq_of_lt hb
    simp only [FieldKind.read, FieldKind.width, Operand.bits_reg, true_imp_iff]
    rcases Nat.lt_or_ge 16 b with h | h
    · rw [regdec_of_gt (hmod.symm ▸ h)]
      exact iff_of_false (Nat.ne_of_lt (Nat.lt_trans (by decide) h)) (Nat.not_le.2 h)
    · rw [regdec_of_le (hmod.symm ▸ h), hmod]
      exact iff_of_true rfl h
  | immediate n =>
    have hmod : (BitVec.ofNat n b).toNat = b := Nat.mod_eq_of_lt hb
    simp [FieldKind.read, FieldKind.width, hmod]

end Sys2Proof
end

section
/-! SUPPORT. The family `30_encoding.md`: what decode refuses and what it gives (R72, R74), which bits it looks at (R65), where encode
puts each field (R73), and in what sense the two invert each other (R75). With them Lui and Li, whose words and effect are alike. -/

namespace Sys2Proof

open Machine

/-! ## The opcode -/

theorem code_toNat_eq_iff {c : Codec} {k : Mnemonic} {w : Word} :
    (c.opc.code k).toNat = bitSlice w 7 0 ↔ c.opc.code k = opcodeField w := by
  rw [← opcodeField_toNat, BitVec.toNat_inj]

theorem ofNat_bitSlice_opcode (w : Word) : BitVec.ofNat 8 (bitSlice w 7 0) = opcodeField w := by
  rw [← opcodeField_toNat, BitVec.ofNat_toNat, BitVec.setWidth_eq]

/-- The one refusal of R74. -/
theorem decode_error_iff {c : Codec} {w : Word} {e : DecodeError} :
    decode c w = .error e ↔ c.opc.lookup (opcodeField w) = none ∧ e = .unknownOpcode (opcodeField w) := by
  cases h : c.opc.lookup (opcodeField w) <;> simp [decode, h, eq_comm]

theorem exists_decode_of_code {c : Codec} {w : Word} {k : Mnemonic} (h : c.opc.code k = opcodeField w) :
    ∃ i, decode c w = .ok i := by
  cases hd : decode c w with
  | ok i => exact ⟨i, rfl⟩
  | error e => exact absurd h (OpcodeMap.lookup_eq_none.1 (decode_error_iff.1 hd).1 k)

/-- The opcodes R76 leaves free. -/
theorem defaultOpcodes_lookup_eq_none (op : Byte) :
    defaultOpcodes.lookup op = none ↔ op.toNat = 0 ∨ 16 ≤ op.toNat := by
  revert op
  decide

theorem decode_of_bitSlice {c : Codec} (hc : c.Valid) {w : Word} {k : Mnemonic} (h : bitSlice w 7 0 = (c.opc.code k).toNat) :
    decode c w = .ok (decodeAs c k w) :=
  decode_of_code hc.1 (code_toNat_eq_iff.1 h.symm).symm

/-! ## The bits decode looks at -/

/-- A field below bit `m` is told by the bits below `m`. -/
theorem extract_congr {v w : Word} {o n m : Nat} (hm : o + n ≤ m) (h : v.toNat % 2 ^ m = w.toNat % 2 ^ m) :
    extract v o n = extract w o n := by
  have hdvd : 2 ^ o * 2 ^ n ∣ 2 ^ m := by rw [← pow_add]; exact Nat.pow_dvd_pow 2 hm
  rw [extract, extract, ← Nat.mod_mul_right_div_self, ← Nat.mod_mul_right_div_self, ← Nat.mod_mod_of_dvd _ hdvd, h,
    Nat.mod_mod_of_dvd _ hdvd]

theorem unpackFields_congr {v w : Word} {m : Nat} (h : v.toNat % 2 ^ m = w.toNat % 2 ^ m) (l : List Field) (o : Nat)
    (hm : o + widths l ≤ m) : unpackFields v o l = unpackFields w o l := by
  induction l generalizing o with
  | nil => rfl
  | cons f l ih =>
    have hw : widths (f :: l) = f.kind.width + widths l := by simp [widths]
    rw [unpackFields, unpackFields, extract_congr (by omega) h, ih _ (by omega)]

/-- Two words that agree below the end of the layout of their opcode decode alike (R65). -/
theorem decode_congr {c : Codec} (hc : c.Valid) {v w : Word} {k : Mnemonic} {hi : Nat}
    (hk : bitSlice w 7 0 = (c.opc.code k).toNat) (hfields : 8 + widths (c.layouts.layout k) = hi + 1)
    (h : bitSlice v hi 0 = bitSlice w hi 0) : decode c v = decode c w := by
  simp only [bitSlice, pow_zero, Nat.div_one, Nat.sub_zero] at h
  have hdvd : 2 ^ 8 ∣ 2 ^ (hi + 1) := Nat.pow_dvd_pow 2 (by omega)
  have hop : bitSlice v 7 0 = bitSlice w 7 0 := by
    simp only [bitSlice, pow_zero, Nat.div_one, Nat.sub_zero]
    rw [← Nat.mod_mod_of_dvd _ hdvd, h, Nat.mod_mod_of_dvd _ hdvd]
  rw [decode_of_bitSlice hc (hop.trans hk), decode_of_bitSlice hc hk, decodeAs, decodeAs,
    unpackFields_congr h _ 8 (by omega)]

/-! ## The bits encode sets -/

/-- An encoded word has no bit above its layout (R65, R73). -/
theorem encode_lt (c : Codec) (i : Instr) : (encode c i).toNat < 2 ^ (8 + widths (c.layouts.layout i.mnemonic)) := by
  have hop : (c.opc.code i.mnemonic).toNat < 2 ^ (8 + widths (c.layouts.layout i.mnemonic)) :=
    Nat.lt_of_lt_of_le (c.opc.code i.mnemonic).isLt (Nat.pow_le_pow_right (by decide) (by omega))
  rw [encode, BitVec.toNat_ofNat]
  exact Nat.lt_of_le_of_lt (Nat.mod_le _ _) (Nat.or_lt_two_pow hop (packFields_lt _ _ _))

theorem bitSlice_top (w : Word) {lo : Nat} (h : lo ≤ 32) : bitSlice w 31 lo = w.toNat / 2 ^ lo := by
  have hlt : w.toNat < 2 ^ lo * 2 ^ (31 + 1 - lo) := by
    rw [← pow_add, show lo + (31 + 1 - lo) = 32 by omega]
    exact w.isLt
  rw [bitSlice, Nat.mod_eq_of_lt (Nat.div_lt_of_lt_mul hlt)]

/-- A word with no bit above its layout, format by format: bits 31:23 of R and 31:8 of N are the only ones no field covers (R65). -/
theorem unused_bits_zero_iff {c : Codec} (hv : c.layouts.Valid) (k : Mnemonic) (w : Word) :
    w.toNat / 2 ^ (8 + widths (c.layouts.layout k)) = 0 ↔
      (k ∈ [Mnemonic.add, .sub, .mul, .and, .or, .xor, .shl, .shr, .shrA] → bitSlice w 31 23 = 0) ∧
      (k = .syscall → bitSlice w 31 8 = 0) := by
  have hlt : w.toNat / 2 ^ 32 = 0 := Nat.div_eq_of_lt w.isLt
  rw [eight_add_widths hv, bitSlice_top w (by decide), bitSlice_top w (by decide)]
  cases k with
  | add | sub | mul | and | or | xor | shl | shr | shrA | syscall => simp
  | addI | lui | lw | sw | li => simpa using hlt

/-- Encode gives a word back exactly when it agrees with the word in every field and above the layout. -/
theorem encode_eq_iff {c : Codec} (hv : c.layouts.Valid) {i : Instr} {w : Word} (hop : c.opc.code i.mnemonic = opcodeField w) :
    encode c i = w ↔
      (∀ f ∈ c.layouts.layout i.mnemonic, fieldAt c i.mnemonic f.role f.kind.width (encode c i) =
        fieldAt c i.mnemonic f.role f.kind.width w) ∧
      w.toNat / 2 ^ (8 + widths (c.layouts.layout i.mnemonic)) = 0 := by
  have hhigh := Nat.div_eq_of_lt (encode_lt c i)
  constructor
  · intro h
    rw [h] at hhigh ⊢
    exact ⟨fun _ _ => rfl, hhigh⟩
  · rintro ⟨hfields, hzero⟩
    have hlow : bitSlice (encode c i) 7 0 = bitSlice w 7 0 := by
      rw [← opcodeField_toNat, ← opcodeField_toNat, opcodeField_encode, hop]
    simp only [bitSlice, pow_zero, Nat.div_one] at hlow
    exact BitVec.eq_of_toNat_eq (fields_ext 8 (hv.nodup _) hlow hfields (hhigh.trans hzero.symm))

/-! ## The fields of each format as numbers (R62) -/

theorem packed_layoutR (place : Role → Nat) (x y z : Reg) :
    (((layoutR.map fun f => f.bits [(.rd, .reg x), (.rs1, .reg y), (.rs2, .reg z)] * 2 ^ place f.role).sum : Nat) : Int) =
      x.val * 2 ^ place .rd + y.val * 2 ^ place .rs1 + z.val * 2 ^ place .rs2 := by
  simp [layoutR, Field.reg, Field.bits, List.lookup, FieldKind.width, add_assoc]

theorem packed_layoutI (place : Role → Nat) (x y : Reg) (v : Int) :
    (((layoutI.map fun f => f.bits [(.rd, .reg x), (.rs, .reg y), (.imm, .imm v)] * 2 ^ place f.role).sum : Nat) : Int) =
      x.val * 2 ^ place .rd + y.val * 2 ^ place .rs + v % 2 ^ 14 * 2 ^ place .imm := by
  simp [layoutI, Field.reg, Field.immediate, Field.bits, List.lookup, FieldKind.width, toBits_toNat, add_assoc]

theorem packed_layoutU (place : Role → Nat) (x : Reg) (v : Int) :
    (((layoutU.map fun f => f.bits [(.rd, .reg x), (.imm, .imm v)] * 2 ^ place f.role).sum : Nat) : Int) =
      x.val * 2 ^ place .rd + v % 2 ^ 19 * 2 ^ place .imm := by
  simp [layoutU, Field.reg, Field.immediate, Field.bits, List.lookup, FieldKind.width, toBits_toNat]

/-! ## Decode after encode -/

/-- What a decoded instruction's fields encode to: the bits of their reading (R72, R73). -/
theorem fieldAt_encode_of_decode {c : Codec} (hv : c.layouts.Valid) {w : Word} {i : Instr} (h : decode c w = .ok i)
    {f : Field} (hf : f ∈ c.layouts.layout i.mnemonic) :
    fieldAt c i.mnemonic f.role f.kind.width (encode c i) =
      (f.kind.read (fieldAt c i.mnemonic f.role f.kind.width w)).bits f.kind.width := by
  obtain ⟨x, hx, hbits⟩ := fieldAt_encode_operand hv hf
  rw [lookup_operands_of_decode hv h hf] at hx
  rw [hbits, Option.some.inj hx]

/-- R75: every field of the encoded word reads as the operand packed there. -/
theorem decode_encode {c : Codec} (hc : c.Valid) {i : Instr} (hi : WellFormed i) : decode c (encode c i) = .ok i := by
  obtain ⟨hinj, hv⟩ := hc
  have hdecode := decode_of_code hinj (opcodeField_encode c i)
  have hk : (decodeAs c i.mnemonic (encode c i)).mnemonic = i.mnemonic := Instr.mnemonic_ofOperands _ _
  rw [hdecode]
  refine congrArg _ (Instr.ext_operands hk fun f hf => ?_)
  have hread := lookup_operands_of_decode hv hdecode (hv.mem_iff.2 hf)
  rw [hk] at hread hf
  have hx := i.lookup_operands hf
  rw [hread, fieldAt_encode hv i hf, Field.bits, hx]
  exact congrArg some (read_bits_operand hi hf)

/-- The words encode gives back are those with no unused bit set and no register field the clamp changes (R75). -/
theorem encode_decode_iff {c : Codec} (hv : c.layouts.Valid) {w : Word} {i : Instr} (h : decode c w = .ok i) :
    encode c i = w ↔
      (∀ r, ⟨r, .register⟩ ∈ c.layouts.layout i.mnemonic → fieldAt c i.mnemonic r 5 w ≤ 16) ∧
      w.toNat / 2 ^ (8 + widths (c.layouts.layout i.mnemonic)) = 0 := by
  rw [encode_eq_iff hv (code_mnemonic_of_decode h)]
  refine and_congr_left' ⟨fun hf r hr => ?_, fun hr f hf => ?_⟩
  · have hbits := hf _ hr
    rw [fieldAt_encode_of_decode hv h hr] at hbits
    exact (bits_read_eq_iff (Nat.mod_lt _ (by positivity))).1 hbits rfl
  · rw [fieldAt_encode_of_decode hv h hf]
    refine (bits_read_eq_iff (Nat.mod_lt _ (by positivity))).2 fun hkind => ?_
    obtain ⟨r, kind⟩ := f
    cases hkind
    exact hr r hf

/-- R71: the immediate decode gives comes from its field, so it is in range. -/
theorem wellFormed_of_decode {c : Codec} (hv : c.layouts.Valid) {w : Word} {i : Instr} (h : decode c w = .ok i) :
    WellFormed i := by
  refine wellFormed_iff.2 fun n v himm => ?_
  obtain ⟨hf, rfl⟩ := Instr.immediate_eq_some_iff.1 himm
  have hread := lookup_operands_of_decode hv h (hv.mem_iff.2 hf)
  simp only [FieldKind.read] at hread
  simp only [immOperand, hread]
  exact immFits_fromBits _

/-! ## The encoder with its check -/

theorem assemble_of_wellFormed (c : Codec) {i : Instr} (h : WellFormed i) : assemble c i = .ok (encode c i) := by
  unfold assemble
  split
  · rfl
  · next n v himm => rw [newImmediate_of_fits (wellFormed_iff.1 h n v himm)]

theorem assemble_of_not_wellFormed (c : Codec) {i : Instr} {n : Nat} {v : Int} (himm : i.immediate = some (n, v))
    (h : ¬ WellFormed i) : assemble c i = .error (.immediateOutOfRange v n) := by
  have hfits : ¬ ImmFits n v := fun hfits => h (by simpa [WellFormed, wellFormed, himm] using hfits)
  simp only [assemble, himm, newImmediate_of_not_fits hfits]

/-! ## Lui and Li -/

/-- A word of format U decodes to its register and its immediate, at the places of the layouts configured (R62, R64). -/
theorem decodesAsU_of {k : Mnemonic} {i : Reg → Int → Instr}
    (hi : ∀ {c : Codec}, c.layouts.Valid → ∀ w, decodeAs c k w =
      i (clamped (fieldAt c k .rd 5 w)) (signedField 19 (fieldAt c k .imm 19 w)))
    (hlayout : defaultLayouts.layout k = layoutU) : DecodesAsU k i := by
  intro c w hc hk
  refine ⟨by rw [decode_of_bitSlice hc hk, hi hc.2], fun hdefault => ?_⟩
  simp only [fieldAt, placeOf, hdefault, hlayout]
  exact ⟨rfl, rfl⟩

/-- Writing a register changes nothing else. -/
theorem sameButRegister_writeReg (s : State) (rd : Reg) (v : Word) : SameButRegister rd s (s.writeReg rd v) :=
  ⟨fun _ hr => readReg_writeReg_other hr, fun _ => rfl, rfl, rfl, rfl, rfl, rfl, rfl, rfl⟩

/-- The immediate as a register value (R123). -/
theorem immWord_toNat (imm : Int) : ((immWord imm).toNat : Int) = imm % 2 ^ 32 := toBits_toNat 32 imm

/-- What Lui and Li leave: the immediate in `rd`, not shifted (R121, R122). -/
theorem loadImmediate_spec (rd : Reg) (imm : Int) (s : State) : ∃ t, loadImmediate rd imm s = .next t ∧
    ((t.readReg rd).toNat : Int) = imm % 2 ^ 32 ∧ SameButRegister rd s t :=
  ⟨s.writeReg rd (immWord imm), rfl, by rw [readReg_writeReg_same, immWord_toNat], sameButRegister_writeReg s rd _⟩

/-! ## The obligations -/

/-- Settles O7: both directions compare a word field by field; decode is not injective since Syscall's upper bits are unused. -/
theorem decodeUndoesEncode : Obligations.DecodeUndoesEncode := by
  refine ⟨fun c i hc hi => decode_encode hc hi, fun c w i hc h => ?_,
    0x0000000E, 0x0000010E, by decide, by decide, .syscall, by decide⟩
  rw [encode_decode_iff hc.2 h, unused_bits_zero_iff hc.2]

/-- Settles O5: at every positive width the immediates are the two's-complement numbers. -/
theorem immediatesAreInvertible : Obligations.ImmediatesAreInvertible := by
  intro n hn
  have hpos : 0 < n := by omega
  refine ⟨fun b => ?_, fun v hmin hmax => ⟨toBits_toNat n v, fromBits_toBits hpos ⟨hmin, hmax⟩⟩⟩
  obtain ⟨hmin, hmax⟩ := immFits_fromBits b
  have hext : immWord (fromBits n b) = b.signExtend 32 := by rw [fromBits_eq_toInt]; rfl
  exact ⟨fromBits_eq_signedField b, hmin, hmax, hext, toBits_fromBits b⟩

/-- Settles O6: the check is the range of R69, and what decode gives is well formed. -/
theorem immediateConstructionChecksTheRange : Obligations.ImmediateConstructionChecksTheRange := by
  have h14 (v : Int) : ImmFits 14 v ↔ -8192 ≤ v ∧ v ≤ 8191 := by simp [ImmFits, immMin, immMax]
  have h19 (v : Int) : ImmFits 19 v ↔ -262144 ≤ v ∧ v ≤ 262143 := by simp [ImmFits, immMin, immMax]
  refine ⟨fun v => ?_, fun v => ?_, fun c i => ⟨assemble_of_wellFormed c, fun n v => assemble_of_not_wellFormed c,
    fun w n v hc h himm => newImmediate_of_fits (wellFormed_iff.1 (wellFormed_of_decode hc.2 h) n v himm)⟩⟩
  · simp only [newImmediate, h14]
  · simp only [newImmediate, h19]

/-- Settles O8: the lookup of bits 7:0 fails on the unassigned opcodes alone. -/
theorem onlyUnassignedOpcodesAreRefused : Obligations.OnlyUnassignedOpcodesAreRefused := by
  refine ⟨fun c w => ⟨fun h => ?_, fun k h => exists_decode_of_code (code_toNat_eq_iff.1 h)⟩, fun w => ?_⟩
  · rw [ofNat_bitSlice_opcode, decode_error_iff, OpcodeMap.lookup_eq_none]
    exact ⟨fun k hk => h k (code_toNat_eq_iff.2 hk), rfl⟩
  · rw [← opcodeField_toNat, ← defaultOpcodes_lookup_eq_none]
    simp [decode_error_iff, defaultCodec]

/-- Settles O9: decode reads the immediate from a field of its width and the mnemonic from bits 7:0. -/
theorem decodedInstructionsAreWellFormed : Obligations.DecodedInstructionsAreWellFormed :=
  fun _ _ _ hc h => ⟨wellFormed_of_decode hc.2 h, code_toNat_eq_iff.2 (code_mnemonic_of_decode h)⟩

/-- Settles O10: the fields of format R end at bit 22, and Syscall has none. -/
theorem unusedBitsAreIgnored : Obligations.UnusedBitsAreIgnored := by
  intro c hc
  have hR (k : Mnemonic) (hk : k ∈ [Mnemonic.add, .sub, .mul, .and, .or, .xor, .shl, .shr, .shrA]) :
      8 + widths (c.layouts.layout k) = 22 + 1 := by
    rw [eight_add_widths hc.2]
    revert k
    decide
  have hN : 8 + widths (c.layouts.layout .syscall) = 7 + 1 := by rw [eight_add_widths hc.2]; rfl
  exact ⟨fun v w k hop hk h => decode_congr hc hop (hR k hk) h, fun v w hop h => decode_congr hc hop hN h,
    fun i => (unused_bits_zero_iff hc.2 i.mnemonic _).1 (Nat.div_eq_of_lt (encode_lt c i))⟩

/-- Settles O11: the sum of the fields at their places, operand by operand of each format. -/
theorem encodePlacesEveryField : Obligations.EncodePlacesEveryField := by
  refine ⟨fun c i hc => ?_, fun c h => ?_⟩
  · rw [encode_toNat_sum hc.2, Nat.cast_add]
    refine congrArg (_ + ·) ?_
    cases i with
    | add | sub | mul | and | or | xor | shl | shr | shrA => exact packed_layoutR _ _ _ _
    | addI | lw | sw => exact packed_layoutI _ _ _ _
    | lui | li => exact packed_layoutU _ _ _
    | syscall => rfl
  · simp only [placeOf, h]
    decide

/-- Settles O4: the clamp below and above 16, and a register's ordinal as a field that it keeps. -/
theorem registerFieldsClamp : Obligations.RegisterFieldsClamp := by
  refine ⟨fun b => ⟨fun h => regdec_of_le h.2, ?_⟩, fun r => ⟨regenc_toNat r, regdec_regenc r⟩⟩
  rintro (hzero | hgt)
  · exact Fin.ext ((regdec_of_le (by omega)).trans hzero)
  · exact regdec_of_gt hgt

/-- Settles O13, word by word. -/
theorem sampleWordsDecode : Obligations.SampleWordsDecode :=
  ⟨by decide, by decide, by decide, by decide, by decide, by decide, by decide, by decide⟩

/-- Settles O33: format U, and the unshifted immediate in the destination. -/
theorem luiFollowsItsRule : Obligations.LuiFollowsItsRule :=
  ⟨decodesAsU_of (fun hv w => decodeAs_eq hv .lui w) rfl, loadImmediate_spec⟩

/-- Settles O34: as O33; the two instructions execute by the same definition. -/
theorem liFollowsItsRule : Obligations.LiFollowsItsRule :=
  ⟨decodesAsU_of (fun hv w => decodeAs_eq hv .li w) rfl, fun rd imm s => ⟨rfl, loadImmediate_spec rd imm s⟩⟩

end Sys2Proof
end

section
/-! SUPPORT. The family `40_fetch_decode_execute.md`: the four phases of a step (R91), what an error in each of them leaves (R93, R152), what
the step past the program raises (R97), and that a run is the loop of R92, which ends within the turns the model gives it (R96). -/

namespace Sys2Proof.Machine

/-! ## The phases of a step (R91) -/

theorem step_of_poisoned {s : State} (hp : s.poisoned = true) : step s = .refused .machinePoisoned := if_pos hp

theorem step_of_fetch_error {s : State} {e : MemoryError} (hp : s.poisoned = false) (hf : fetch s = .error e) :
    step s = .fault (.raised (.memory e) s) := by
  simp [step, hp, hf, raise]

theorem step_of_decode_error {s : State} {w : Word} {e : DecodeError} (hp : s.poisoned = false) (hf : fetch s = .ok w)
    (hd : decode s.config.codec w = .error e) : step s = .fault (.raised (.decode e) s.advance) := by
  simp [step, hp, hf, hd, raise]

theorem step_of_decode_ok {s : State} {w : Word} {i : Instr} (hp : s.poisoned = false) (hf : fetch s = .ok w)
    (hd : decode s.config.codec w = .ok i) : step s = exec i s.advance := by
  simp [step, hp, hf, hd]

/-- Everything a step of a machine that is not poisoned can be, by the phase that ends it. -/
theorem step_phases {s : State} (hp : s.poisoned = false) :
    (∃ e, fetch s = .error e ∧ step s = .fault (.raised (.memory e) s)) ∨
    ∃ w, fetch s = .ok w ∧
      ((∃ e, decode s.config.codec w = .error e ∧ step s = .fault (.raised (.decode e) s.advance)) ∨
        ∃ i, decode s.config.codec w = .ok i ∧ step s = exec i s.advance) := by
  cases hf : fetch s with
  | error e => exact .inl ⟨e, rfl, step_of_fetch_error hp hf⟩
  | ok w =>
    refine .inr ⟨w, rfl, ?_⟩
    cases hd : decode s.config.codec w with
    | error e => exact .inl ⟨e, rfl, step_of_decode_error hp hf hd⟩
    | ok i => exact .inr ⟨i, rfl, step_of_decode_ok hp hf hd⟩

/-! ## Refusals and errors -/

/-- No arm of `exec` answers a refusal (R93). -/
theorem exec_ne_refused (i : Instr) (s : State) (r : Refusal) : exec i s ≠ .refused r := by
  cases i with
  | lw rd rs imm => simp only [exec, execLw]; split <;> nofun
  | sw rd rs imm => simp only [exec, execSw]; split <;> nofun
  | add | sub | mul | and | or | xor | shl | shr | shrA | addI | lui | syscall | li => nofun

/-- Execution raises only what the checks of R133 raise, in `Lw` and `Sw`, and has changed nothing before. -/
theorem exec_fault_cases {i : Instr} {s : State} {f : Fault} (h : exec i s = .fault f) :
    (∃ rd rs imm, i = .lw rd rs imm ∨ i = .sw rd rs imm) ∧ ∃ e, f = .raised (.memory e) s := by
  cases i with
  | lw rd rs imm =>
    simp only [exec, execLw] at h
    split at h <;> cases h
    exact ⟨⟨rd, rs, imm, .inl rfl⟩, _, rfl⟩
  | sw rd rs imm =>
    simp only [exec, execSw] at h
    split at h <;> cases h
    exact ⟨⟨rd, rs, imm, .inr rfl⟩, _, rfl⟩
  | add | sub | mul | and | or | xor | shl | shr | shrA | addI | lui | syscall | li => cases h

/-- Only the poisoned machine refuses a step (R99). -/
theorem step_ne_refused {s : State} (hp : s.poisoned = false) (r : Refusal) : step s ≠ .refused r := by
  rcases step_phases hp with ⟨e, -, hs⟩ | ⟨w, -, ⟨e, -, hs⟩ | ⟨i, -, hs⟩⟩ <;> rw [hs]
  · nofun
  · nofun
  · exact exec_ne_refused i s.advance r

/-- An error is the fetch's own and leaves the state, or comes after a fetch and leaves the state advanced (R152). -/
theorem step_fault_phases {s left : State} {e : Error} (h : step s = .fault (.raised e left)) :
    (∃ f, fetch s = .error f ∧ e = .memory f ∧ left = s) ∨ ∃ w, fetch s = .ok w ∧ left = s.advance := by
  have hp : s.poisoned = false := by
    by_contra hpois
    rw [step_of_poisoned (by simpa using hpois)] at h
    cases h
  rcases step_phases hp with ⟨f, hf, hs⟩ | ⟨w, hw, ⟨f, -, hs⟩ | ⟨i, -, hs⟩⟩ <;> rw [hs] at h
  · cases h; exact .inl ⟨f, hf, rfl, rfl⟩
  · cases h; exact .inr ⟨w, hw, rfl⟩
  · obtain ⟨f, hraised⟩ := exec_fault_left h
    cases hraised
    exact .inr ⟨w, hw, rfl⟩

/-- Whatever the phase, an error leaves `halt` (D20), the registers and the memory. -/
theorem step_fault_frame {s left : State} {e : Error} (h : step s = .fault (.raised e left)) :
    left.halt = s.halt ∧ SameRegisters s left ∧ SameMemory s left := by
  rcases step_fault_cases h with rfl | ⟨rfl, -⟩ <;> exact ⟨rfl, fun _ => rfl, fun _ => rfl⟩

/-! ## The step past the program (R97) -/

/-- Outside the load window every region grants Read (R22). -/
theorem HasProgram.readable {s : State} {len : Nat} (h : HasProgram s len) (k : RegionKind) :
    (s.regions.region k).perms.read = true := by
  rw [h.regions]
  cases k <;> rfl

/-- The byte past the program is Data's, or Code's when there is no program (R35, D13). -/
theorem HasProgram.owner_end {s : State} {len : Nat} {a : Word} (h : HasProgram s len) (hc : s.config.Valid)
    (hin : len < s.config.memSize) (ha : a.toNat = len) : ∃ k, s.regions.owner a = some k := by
  rw [h.owner_eq hc (by omega), if_pos ha]
  split_ifs <;> exact ⟨_, rfl⟩

/-- Bytes that are all 0 are fetched as the word 0. -/
theorem fetch_zero {s : State} {k : RegionKind} (hfit : s.pc.toNat + 4 ≤ s.config.memSize)
    (ho : s.regions.owner s.pc = some k) (hp : (s.regions.region k).perms.read = true)
    (hz : ∀ i, i < 4 → s.byteAt (s.pc.toNat + i) = 0) : fetch s = .ok 0 := by
  obtain ⟨u, hread, hvalue⟩ := exists_memRead (w := .word) hfit ho hp
  have hzero : s.mem.readLE s.pc.toNat 4 = 0 % 256 ^ 4 :=
    Memory.readLE_of_bytes fun i hi => by rw [← State.byteAt, hz i hi]; simp
  have hu : u = 0 := BitVec.eq_of_toNat_eq (hvalue.trans hzero)
  exact hu ▸ hread

/-- The word 0 is refused where no mnemonic has opcode 0 (R74). -/
theorem decode_zero {c : Codec} (h : ∀ k, c.opc.code k ≠ 0) : decode c 0 = .error (.unknownOpcode 0) :=
  decode_error_iff.2 ⟨OpcodeMap.lookup_eq_none.2 h, rfl⟩

section PastTheProgram

variable {s : State} {len : Nat}

theorem step_past_capacity (hp : s.poisoned = false) (hpc : s.pc.toNat = len) (hlt : s.config.memSize < len + 4) :
    step s = .fault (.raised (.memory .outOfBounds) s) :=
  step_of_fetch_error hp (memRead_error_iff.2 (checkAccess_outOfBounds (hpc ▸ hlt)))

theorem HasProgram.step_past_end (h : HasProgram s len) (hc : s.config.Valid) (hp : s.poisoned = false)
    (hpc : s.pc.toNat = len) (hfit : len + 4 ≤ s.config.memSize) (hz : ∀ i, i < 4 → s.byteAt (len + i) = 0)
    (hop : ∀ k, s.config.codec.opc.code k ≠ 0) :
    step s = .fault (.raised (.decode (.unknownOpcode 0)) s.advance) := by
  obtain ⟨k, howner⟩ := h.owner_end hc (by omega) hpc
  exact step_of_decode_error hp (fetch_zero (hpc ▸ hfit) howner (h.readable k) (hpc ▸ hz)) (decode_zero hop)

end PastTheProgram

/-! ## The loop of a run (R92) -/

theorem run_eq_runFor {s : State} (hp : s.poisoned = false) : run s = runFor (s.config.memSize / 4 + 1) s := by
  simp [run, hp]

/-- `halt` is tested first, with any number of turns left (D19). -/
theorem runFor_halted {s : State} (hh : s.halt = true) (n : Nat) : runFor n s = .next s := by
  cases n <;> exact if_pos hh

theorem runFor_next {s t : State} (hh : s.halt = false) (hs : step s = .next t) (n : Nat) :
    runFor (n + 1) s = runFor n t := by
  simp [runFor, hh, hs]

theorem runFor_fault {s : State} {f : Fault} (hh : s.halt = false) (hs : step s = .fault f) (n : Nat) :
    runFor (n + 1) s = .fault f := by
  simp [runFor, hh, hs]

/-- The two ends of R96: Halted, or an error with `halt` clear. -/
def RunEnded (o : Host.Outcome State Fault Refusal) : Prop :=
  (∃ t, o = .next t ∧ t.halt = true) ∨ ∃ e left, o = .fault (.raised e left) ∧ left.halt = false

theorem not_runEnded_refused (r : Refusal) : ¬ RunEnded (.refused r) := by
  rintro (⟨t, h, -⟩ | ⟨e, left, h, -⟩) <;> cases h

/-- A run that has ended is the same with a turn more. -/
theorem runFor_succ_of_ended {n : Nat} {s : State} (h : RunEnded (runFor n s)) : runFor (n + 1) s = runFor n s := by
  induction n generalizing s with
  | zero =>
    cases hh : s.halt with
    | true => rw [runFor_halted hh, runFor_halted hh]
    | false => simp [runFor, hh, not_runEnded_refused] at h
  | succ n ih =>
    cases hh : s.halt with
    | true => rw [runFor_halted hh, runFor_halted hh]
    | false =>
      cases hs : step s with
      | next t =>
        rw [runFor_next hh hs] at h
        rw [runFor_next hh hs, runFor_next hh hs, ih h]
      | fault f => rw [runFor_fault hh hs, runFor_fault hh hs]
      | refused r => simp [runFor, hh, hs, not_runEnded_refused] at h

/-- Each completed step takes four bytes of the memory past `pc`, so a run ends within turns that cover them all (R96). At least one
turn is needed for the fetch that fails. -/
theorem runFor_ended {n : Nat} {s : State} (hc : s.config.Valid) (hp : s.poisoned = false) (hn : 0 < n)
    (hroom : s.config.memSize < s.pc.toNat + 4 * n) : RunEnded (runFor n s) := by
  induction n generalizing s with
  | zero => cases hn
  | succ n ih =>
    cases hh : s.halt with
    | true => exact .inl ⟨s, runFor_halted hh _, hh⟩
    | false =>
      cases hs : step s with
      | next t =>
        obtain ⟨hpc, hin⟩ := pcAdvancesByFour s t hc hs
        obtain ⟨-, -, hpois, -, hconfig⟩ := stepsLeaveTheControlState s t hs
        rw [runFor_next hh hs]
        exact ih (hconfig ▸ hc) (hpois.trans hp) (by omega) (by rw [hconfig]; omega)
      | fault f =>
        obtain ⟨e, left⟩ := f
        exact .inr ⟨e, left, runFor_fault hh hs n, (step_fault_frame hs).1.trans hh⟩
      | refused r => exact absurd hs (step_ne_refused hp r)

/-- A run that begins with a completed step goes on as the run from where the step leads, which needs one turn less. -/
theorem run_of_step_next {s t : State} (hc : s.config.Valid) (hp : s.poisoned = false) (hh : s.halt = false)
    (hs : step s = .next t) : run s = run t := by
  obtain ⟨hpc, hin⟩ := pcAdvancesByFour s t hc hs
  obtain ⟨-, -, hpois, -, hconfig⟩ := stepsLeaveTheControlState s t hs
  have hended : RunEnded (runFor (s.config.memSize / 4) t) :=
    runFor_ended (hconfig ▸ hc) (hpois.trans hp) (by omega) (by rw [hconfig]; omega)
  rw [run_eq_runFor hp, run_eq_runFor (hpois.trans hp), hconfig, runFor_next hh hs, runFor_succ_of_ended hended]

end Sys2Proof.Machine

namespace Sys2Proof

open Machine

/-- Settles O41: the phase the error came from tells what it leaves. -/
theorem errorsLeaveWhatTheStepHadDone : Obligations.ErrorsLeaveWhatTheStepHadDone := by
  intro s left e h
  refine ⟨fun f hf => ?_, fun w hw => ?_, step_fault_frame h⟩ <;>
    rcases step_fault_phases h with ⟨g, hg, rfl, rfl⟩ | ⟨v, hv, rfl⟩
  · cases hg.symm.trans hf; exact ⟨rfl, rfl⟩
  · cases hv.symm.trans hf
  · cases hg.symm.trans hw
  · rfl

/-- Settles O42, arm by arm of `exec`. -/
theorem onlyLoadsAndStoresRaiseInExecute : Obligations.OnlyLoadsAndStoresRaiseInExecute :=
  fun i s => ⟨exec_ne_refused i s, fun _ => exec_fault_cases⟩

/-- Settles O51: after a program and after reset alike, `pc` stands at the end of the program the descriptors are of. -/
theorem runningOffTheEndIsAnError : Obligations.RunningOffTheEndIsAnError := by
  refine ⟨fun s len hc h _ hp hpc => ⟨step_past_capacity hp hpc, fun hfit hz hop => ?_⟩, fun c hc =>
    ⟨fun hlt => step_past_capacity rfl rfl (by simpa using hlt), fun hfit hop => ?_⟩⟩
  · have hend : BitVec.ofNat 32 (len + 4) = s.pc + 4 := by
      rw [← hpc, BitVec.ofNat_add, BitVec.ofNat_toNat, BitVec.setWidth_eq]
      rfl
    rw [hend]
    exact h.step_past_end hc hp hpc hfit hz hop
  · exact (hasProgram_resetWith c).step_past_end hc rfl rfl (by simpa using hfit) (fun _ _ => rfl) hop

/-- Settles O52: a completed step leaves turns enough for the run from where it leads, and an error ends both sides. -/
theorem runRepeatsSteps : Obligations.RunRepeatsSteps := by
  refine fun s hc hp => ⟨fun hh => by rw [run_eq_runFor hp, runFor_halted hh], fun hh => ?_⟩
  cases hs : step s with
  | next t => exact run_of_step_next hc hp hh hs
  | fault f => rw [run_eq_runFor hp, runFor_fault hh hs]
  | refused r => exact absurd hs (step_ne_refused hp r)

/-- Settles O53: `floor(MEM_SIZE / 4) + 1` turns cover the memory from any `pc`. -/
theorem everyRunEnds : Obligations.EveryRunEnds := by
  intro s hc hp
  rw [run_eq_runFor hp]
  exact runFor_ended hc hp (Nat.succ_pos _) (by omega)

/-- Settles O40, phase by phase. -/
theorem stepRunsTheDecodedInstruction : Obligations.StepRunsTheDecodedInstruction :=
  fun _ hp => ⟨fun _ hf => step_of_fetch_error hp hf,
    fun _ hf => ⟨fun _ hd => step_of_decode_error hp hf hd, fun _ hd => step_of_decode_ok hp hf hd⟩⟩

end Sys2Proof
end

section
/-! SUPPORT. The family `41_arith_logic.md`: the words of format R, what an instruction of two sources leaves, and the results of Add to Xor
(R100 to R107) and of base plus offset (R130). -/

namespace Sys2Proof.Machine

/-! ## Format R -/

/-- A word of format R decodes to its three registers, at the places of the layouts configured (R62, R64). -/
theorem decodesAsR_of {k : Mnemonic} {i : Reg → Reg → Reg → Instr}
    (hi : ∀ ops, Instr.ofOperands ops k = i (regOperand ops .rd) (regOperand ops .rs1) (regOperand ops .rs2))
    (hlayout : defaultLayouts.layout k = layoutR) : DecodesAsR k i := by
  intro c w hc hk
  have hreg {r : Role} (hr : ⟨r, .register⟩ ∈ layoutR) := regOperand_unpack hc.2 w (hlayout ▸ hr)
  refine ⟨?_, fun hdefault => ?_⟩
  · rw [decode_of_bitSlice hc hk, decodeAs, hi, hreg (by decide), hreg (by decide), hreg (by decide)]
  · simp only [fieldAt, placeOf, hdefault, hlayout]
    exact ⟨rfl, rfl, rfl⟩

/-! ## Two sources and a destination -/

/-- What holds between any two words and their result holds between the sources, read before the write, and `rd` after it; nothing else
changes (R13, R100). -/
theorem binary_spec {f : Word → Word → Word} {rule : Word → Word → Word → Prop} (hf : ∀ a b, rule a b (f a b))
    (rd rs1 rs2 : Reg) (s : State) : ∃ t, binary f rd rs1 rs2 s = .next t ∧
      rule (s.readReg rs1) (s.readReg rs2) (t.readReg rd) ∧ SameButRegister rd s t :=
  ⟨s.writeReg rd (f (s.readReg rs1) (s.readReg rs2)), rfl, by rw [readReg_writeReg_same]; exact hf _ _,
    sameButRegister_writeReg s rd _⟩

/-! ## Results modulo 2^32 -/

/-- The difference is the exact one modulo 2^32 (R102). -/
theorem toNat_sub_emod (a b : Word) : ((a - b).toNat : Int) = (a.toNat - b.toNat : Int) % 2 ^ 32 := by
  have hb := b.isLt
  rw [BitVec.toNat_sub]
  omega

/-- A word plus an immediate is the exact sum modulo 2^32 (R120, R130). -/
theorem toNat_add_immWord (a : Word) (imm : Int) : ((a + immWord imm).toNat : Int) = (a.toNat + imm) % 2 ^ 32 := by
  rw [BitVec.toNat_add, Int.natCast_emod, Nat.cast_add, immWord_toNat]
  exact Int.add_emod_emod _ _ _

end Sys2Proof.Machine

namespace Sys2Proof

open Machine

/-- Settles O22: format R, and the sum of the sources modulo 2^32. -/
theorem addFollowsItsRule : Obligations.AddFollowsItsRule :=
  ⟨decodesAsR_of (fun _ => rfl) rfl,
    binary_spec (rule := fun a b v => v.toNat = (a.toNat + b.toNat) % 2 ^ 32) BitVec.toNat_add⟩

/-- Settles O23: format R, and the first source less the second modulo 2^32. -/
theorem subFollowsItsRule : Obligations.SubFollowsItsRule :=
  ⟨decodesAsR_of (fun _ => rfl) rfl,
    binary_spec (rule := fun a b v => (v.toNat : Int) = (a.toNat - b.toNat : Int) % 2 ^ 32) toNat_sub_emod⟩

/-- Settles O24: format R, and the product of the sources modulo 2^32. -/
theorem mulFollowsItsRule : Obligations.MulFollowsItsRule :=
  ⟨decodesAsR_of (fun _ => rfl) rfl,
    binary_spec (rule := fun a b v => v.toNat = a.toNat * b.toNat % 2 ^ 32) BitVec.toNat_mul⟩

/-- Settles O25: format R, and each bit the conjunction of the sources' bits. -/
theorem andFollowsItsRule : Obligations.AndFollowsItsRule :=
  ⟨decodesAsR_of (fun _ => rfl) rfl,
    binary_spec (rule := fun a b v => ∀ i, i < 32 → v.getLsbD i = (a.getLsbD i && b.getLsbD i))
      fun _ _ _ _ => BitVec.getLsbD_and⟩

/-- Settles O26: format R, and each bit the disjunction of the sources' bits. -/
theorem orFollowsItsRule : Obligations.OrFollowsItsRule :=
  ⟨decodesAsR_of (fun _ => rfl) rfl,
    binary_spec (rule := fun a b v => ∀ i, i < 32 → v.getLsbD i = (a.getLsbD i || b.getLsbD i))
      fun _ _ _ _ => BitVec.getLsbD_or⟩

/-- Settles O27: format R, and each bit the exclusive disjunction of the sources' bits. -/
theorem xorFollowsItsRule : Obligations.XorFollowsItsRule :=
  ⟨decodesAsR_of (fun _ => rfl) rfl,
    binary_spec (rule := fun a b v => ∀ i, i < 32 → v.getLsbD i = (a.getLsbD i).xor (b.getLsbD i))
      fun _ _ _ _ => BitVec.getLsbD_xor⟩

/-- Settles O35: the base plus the immediate's pattern. -/
theorem effectiveAddressWraps : Obligations.EffectiveAddressWraps :=
  fun s base imm => toNat_add_immWord (s.readReg base) imm

end Sys2Proof
end

section
/-! SUPPORT. The family `42_shift.md`: what a shift gives as a number, unsigned and signed (R111 to R113). -/

namespace Sys2Proof.Machine

/-- A left shift is the product with a power of two, modulo 2^32 (R111). -/
theorem toNat_shiftLeft_eq_mul (a : Word) (k : Nat) : (a <<< k).toNat = a.toNat * 2 ^ k % 2 ^ 32 := by
  rw [BitVec.toNat_shiftLeft, Nat.shiftLeft_eq]

/-- A logical right shift is the unsigned floor division by a power of two (R112). -/
theorem toNat_shiftRight_eq_div (a : Word) (k : Nat) : (a >>> k).toNat = a.toNat / 2 ^ k := by
  rw [BitVec.toNat_ushiftRight, Nat.shiftRight_eq_div_pow]

/-- The signed reading is the library's two's-complement one. -/
theorem signed_eq_toInt (v : Word) : signed v = v.toInt := by
  rw [signed, BitVec.toInt_eq_toNat_cond]
  split_ifs <;> omega

/-- An arithmetic right shift is the signed division by a power of two, rounded toward minus infinity, modulo 2^32 (R113). -/
theorem toNat_sshiftRight_eq_fdiv (a : Word) (k : Nat) :
    ((a.sshiftRight k).toNat : Int) = Int.fdiv (signed a) (2 ^ k) % 2 ^ 32 :=
  calc ((a.sshiftRight k).toNat : Int)
    _ = (a.toInt >>> k) % 2 ^ 32 := immWord_toNat (a.toInt >>> k)
    _ = a.toInt / 2 ^ k % 2 ^ 32 := by rw [Int.shiftRight_eq_div_pow]; norm_cast
    _ = Int.fdiv (signed a) (2 ^ k) % 2 ^ 32 := by rw [signed_eq_toInt, Int.fdiv_eq_ediv_of_nonneg _ (by positivity)]

end Sys2Proof.Machine

namespace Sys2Proof

open Machine

/-- Settles O29: format R, and the first source times the power of two of the shift amount, modulo 2^32. -/
theorem shiftLeftFollowsItsRule : Obligations.ShiftLeftFollowsItsRule :=
  ⟨decodesAsR_of (fun _ => rfl) rfl, fun rd rs1 rs2 s =>
    binary_spec (rule := fun a b v => v.toNat = a.toNat * 2 ^ (s.config.shamt b).val % 2 ^ 32)
      (fun a b => toNat_shiftLeft_eq_mul a (shiftAmount s b)) rd rs1 rs2 s⟩

/-- Settles O30: format R, and the unsigned quotient of the first source, rounded down. -/
theorem shiftRightFollowsItsRule : Obligations.ShiftRightFollowsItsRule :=
  ⟨decodesAsR_of (fun _ => rfl) rfl, fun rd rs1 rs2 s =>
    binary_spec (rule := fun a b v => v.toNat = a.toNat / 2 ^ (s.config.shamt b).val)
      (fun a b => toNat_shiftRight_eq_div a (shiftAmount s b)) rd rs1 rs2 s⟩

/-- Settles O31: format R, and the signed quotient of the first source, rounded down, modulo 2^32. -/
theorem arithmeticShiftFollowsItsRule : Obligations.ArithmeticShiftFollowsItsRule :=
  ⟨decodesAsR_of (fun _ => rfl) rfl, fun rd rs1 rs2 s =>
    binary_spec (rule := fun a b v => (v.toNat : Int) = Int.fdiv (signed a) (2 ^ (s.config.shamt b).val) % 2 ^ 32)
      (fun a b => toNat_sshiftRight_eq_fdiv a (shiftAmount s b)) rd rs1 rs2 s⟩

end Sys2Proof
end

section
/-! SUPPORT. The family `43_immediate.md`: the words of format I, and what an instruction with a source and an immediate leaves (R120). -/

namespace Sys2Proof.Machine

/-- A word of format I decodes to its two registers and its immediate, at the places of the layouts configured (R62, R64). -/
theorem decodesAsI_of {k : Mnemonic} {i : Reg → Reg → Int → Instr}
    (hi : ∀ ops, Instr.ofOperands ops k = i (regOperand ops .rd) (regOperand ops .rs) (immOperand ops))
    (hlayout : defaultLayouts.layout k = layoutI) : DecodesAsI k i := by
  intro c w hc hk
  have hreg {r : Role} (hr : ⟨r, .register⟩ ∈ layoutI) := regOperand_unpack hc.2 w (hlayout ▸ hr)
  have himm (hr : ⟨.imm, .immediate 14⟩ ∈ layoutI) := immOperand_unpack hc.2 w (hlayout ▸ hr)
  refine ⟨?_, fun hdefault => ?_⟩
  · rw [decode_of_bitSlice hc hk, decodeAs, hi, hreg (by decide), hreg (by decide), himm (by decide)]
  · simp only [fieldAt, placeOf, hdefault, hlayout]
    exact ⟨rfl, rfl, rfl⟩

/-- What AddI leaves: the source, read before the write, plus the immediate in `rd`; nothing else changes (R13, R120). -/
theorem execAddI_spec (rd rs : Reg) (imm : Int) (s : State) : ∃ t, execAddI rd rs imm s = .next t ∧
    ((t.readReg rd).toNat : Int) = ((s.readReg rs).toNat + imm) % 2 ^ 32 ∧ SameButRegister rd s t :=
  ⟨s.writeReg rd (s.readReg rs + immWord imm), rfl, by rw [readReg_writeReg_same, toNat_add_immWord],
    sameButRegister_writeReg s rd _⟩

end Sys2Proof.Machine

namespace Sys2Proof

open Machine

/-- Settles O32: format I, and the sum of the source and the immediate modulo 2^32. -/
theorem addImmediateFollowsItsRule : Obligations.AddImmediateFollowsItsRule :=
  ⟨decodesAsI_of (fun _ => rfl) rfl, execAddI_spec⟩

end Sys2Proof
end

section
/-! SUPPORT. The family `44_load_store.md`: what Lw and Sw answer for each answer of the memory checker (R131 to R133). -/

namespace Sys2Proof.Machine

/-- An address is the effective one when it is the exact sum modulo 2^32 (R130). -/
theorem effectiveAddress_eq_of_toNat {s : State} {base : Reg} {imm : Int} {a : Word}
    (h : (a.toNat : Int) = ((s.readReg base).toNat + imm) % 2 ^ 32) : effectiveAddress s base imm = a :=
  BitVec.eq_of_toNat_eq <| Int.ofNat_inj.1 <| (Sys2Proof.effectiveAddressWraps s base imm).trans h.symm

/-- A word read has the value of its four bytes, least significant first (R32). -/
theorem memRead_word_bytes {s : State} {a v : Word} (h : memRead s a .word = .ok v) :
    v.toNat = (s.byteAt a.toNat).toNat + 2 ^ 8 * (s.byteAt (a.toNat + 1)).toNat +
      2 ^ 16 * (s.byteAt (a.toNat + 2)).toNat + 2 ^ 24 * (s.byteAt (a.toNat + 3)).toNat := by
  rw [memRead_value h]
  simp only [Width.bytes, Memory.readLE, State.byteAt, Nat.add_assoc, Nat.reduceAdd]
  omega

/-! ## Lw and Sw on each answer of the checker -/

section
variable {rd rs : Reg} {imm : Int} {s t : State} {v : Word} {e : MemoryError}

theorem exec_lw_of_error (h : loadWord s (effectiveAddress s rs imm) = .error e) :
    exec (.lw rd rs imm) s = .fault (.raised (.memory e) s) := by
  simp only [exec, execLw, h, raise]

theorem exec_lw_of_ok (h : loadWord s (effectiveAddress s rs imm) = .ok v) :
    exec (.lw rd rs imm) s = .next (s.writeReg rd v) := by
  simp only [exec, execLw, h, result_eq_writeReg]

theorem exec_sw_of_error (h : storeWord s (effectiveAddress s rd imm) (s.readReg rs) = .error e) :
    exec (.sw rd rs imm) s = .fault (.raised (.memory e) s) := by
  simp only [exec, execSw, h, raise]

theorem exec_sw_of_ok (h : storeWord s (effectiveAddress s rd imm) (s.readReg rs) = .ok t) :
    exec (.sw rd rs imm) s = .next t := by
  obtain ⟨-, hwrite⟩ := storeWord_ok_iff.1 h
  obtain ⟨-, rfl⟩ := memWrite_ok_iff.1 hwrite
  simp only [exec, execSw, h, flagsAfter]

end

end Sys2Proof.Machine

namespace Sys2Proof

open Machine

/-- Settles O36: format I, the alignment, then the answers of a checked read of the word. -/
theorem loadWordFollowsItsRule : Obligations.LoadWordFollowsItsRule := by
  refine ⟨decodesAsI_of (fun _ => rfl) rfl, fun rd rs imm s a ha => ?_⟩
  obtain rfl := effectiveAddress_eq_of_toNat ha
  refine ⟨fun hunaligned => exec_lw_of_error (loadWord_unaligned hunaligned), fun haligned => ?_⟩
  have hload := loadWord_aligned (s := s) haligned
  obtain ⟨hcapacity, hfits⟩ := checkedReadsFollowTheRule s (effectiveAddress s rs imm) .word
  refine ⟨fun h => exec_lw_of_error (hload.trans (hcapacity h)), fun hfit => ?_⟩
  obtain ⟨hunowned, howned⟩ := hfits hfit
  refine ⟨fun h => exec_lw_of_error (hload.trans (hunowned h)), fun k howner => ?_⟩
  obtain ⟨hdenied, hgranted⟩ := howned k howner
  refine ⟨fun h => exec_lw_of_error (hload.trans (hdenied h)), fun h => ?_⟩
  obtain ⟨v, hread, -⟩ := hgranted h
  exact ⟨_, exec_lw_of_ok (hload.trans hread), by rw [readReg_writeReg_same]; exact memRead_word_bytes hread,
    sameButRegister_writeReg s rd v⟩

/-- Settles O37: format I, the alignment, then the answers of a checked write of the word. -/
theorem storeWordFollowsItsRule : Obligations.StoreWordFollowsItsRule := by
  refine ⟨decodesAsI_of (fun _ => rfl) rfl, fun rd rs imm s a ha => ?_⟩
  obtain rfl := effectiveAddress_eq_of_toNat ha
  refine ⟨fun hunaligned => exec_sw_of_error (storeWord_unaligned hunaligned), fun haligned => ?_⟩
  have hstore := storeWord_aligned (s := s) (v := s.readReg rs) haligned
  obtain ⟨hcapacity, hfits⟩ := checkedWritesFollowTheRule s (effectiveAddress s rd imm) .word (s.readReg rs)
  refine ⟨fun h => exec_sw_of_error (hstore.trans (hcapacity h)), fun hfit => ?_⟩
  obtain ⟨hunowned, howned⟩ := hfits hfit
  refine ⟨fun h => exec_sw_of_error (hstore.trans (hunowned h)), fun k howner => ?_⟩
  obtain ⟨hdenied, hgranted⟩ := howned k howner
  refine ⟨fun h => exec_sw_of_error (hstore.trans (hdenied h)), fun h => ?_⟩
  obtain ⟨t, hwrite, -⟩ := hgranted h
  exact ⟨t, exec_sw_of_ok (hstore.trans hwrite), memWrite_storedWord hwrite, memWrite_frame hwrite⟩

end Sys2Proof
end

section
/-! SUPPORT. The family `45_system.md`: what Syscall leaves, and which words are a Syscall (R140). -/

namespace Sys2Proof.Machine

/-- What Syscall leaves: `halt` is 1, whatever it was before, and nothing else changes (R140). -/
theorem execSyscall_spec (s : State) : ∃ t, execSyscall s = .next t ∧
    t.halt = true ∧ SameRegisters s t ∧ SameMemory s t ∧ SameControl s t :=
  have hexec : exec .syscall s = .next { s with halt := true } := rfl
  ⟨_, hexec, (exec_next_halt_iff hexec).2 (.inr rfl), fun _ => rfl, fun _ => rfl, exec_next_sameControl hexec⟩

end Sys2Proof.Machine

namespace Sys2Proof

open Machine

/-- Settles O39: the opcode in bits 7:0 alone gives Syscall, which has no field (D4), and its one effect is `halt`. -/
theorem syscallFollowsItsRule : Obligations.SyscallFollowsItsRule :=
  ⟨fun _ _ hc hk => decode_of_bitSlice hc hk, execSyscall_spec⟩

end Sys2Proof
end

section
/-! SUPPORT. The family `60_exceptions.md`: which memory errors a step can raise (R155 to R157). -/

namespace Sys2Proof.Machine

/-- A word access that a step makes, for Read or for Write and never for Execute (R53), has failed with this error: at its
alignment (R156) or at one of the checks of R38, R34 and R39. -/
inductive AccessFailed (s : State) : MemoryError → Prop where
  | unaligned (a : Word) : AccessFailed s (.unalignedAccess a 4)
  | read {a : Word} {e : MemoryError} (h : checkAccess s .read a 4 = .error e) : AccessFailed s e
  | write {a : Word} {e : MemoryError} (h : checkAccess s .write a 4 = .error e) : AccessFailed s e

section
variable {s t : State} {a v : Word} {e : MemoryError}

theorem AccessFailed.congr (h : AccessFailed s e) (hr : t.regions = s.regions) (hc : t.config = s.config) :
    AccessFailed t e := by
  cases h with
  | unaligned a => exact .unaligned a
  | read h => exact .read ((checkAccess_congr hr hc ..).trans h)
  | write h => exact .write ((checkAccess_congr hr hc ..).trans h)

theorem accessFailed_of_memRead (h : memRead s a .word = .error e) : AccessFailed s e := .read (memRead_error_iff.1 h)

theorem accessFailed_of_loadWord (h : loadWord s a = .error e) : AccessFailed s e := by
  by_cases ha : a.toNat % 4 = 0
  · rw [loadWord_aligned ha] at h
    exact accessFailed_of_memRead h
  · rw [loadWord_unaligned ha] at h
    cases h
    exact .unaligned a

theorem accessFailed_of_storeWord (h : storeWord s a v = .error e) : AccessFailed s e := by
  by_cases ha : a.toNat % 4 = 0
  · rw [storeWord_aligned ha] at h
    exact .write (memWrite_error_iff.1 h)
  · rw [storeWord_unaligned ha] at h
    cases h
    exact .unaligned a

end

/-! ## The memory errors of an instruction and of a step -/

theorem accessFailed_of_exec {i : Instr} {s left : State} {e : MemoryError}
    (h : exec i s = .fault (.raised (.memory e) left)) : AccessFailed s e := by
  obtain ⟨⟨rd, rs, imm, rfl | rfl⟩, -⟩ := exec_fault_cases h
  · cases hload : loadWord s (effectiveAddress s rs imm) with
    | ok v => rw [exec_lw_of_ok hload] at h; cases h
    | error f => rw [exec_lw_of_error hload] at h; cases h; exact accessFailed_of_loadWord hload
  · cases hstore : storeWord s (effectiveAddress s rd imm) (s.readReg rs) with
    | ok t => rw [exec_sw_of_ok hstore] at h; cases h
    | error f => rw [exec_sw_of_error hstore] at h; cases h; exact accessFailed_of_storeWord hstore

/-- A poisoned machine refuses the step instead (R99). -/
theorem not_poisoned_of_step_fault {s : State} {f : Fault} (h : step s = .fault f) : s.poisoned = false := by
  cases hp : s.poisoned with
  | false => rfl
  | true => rw [step_of_poisoned hp] at h; cases h

/-- The fetch, `Lw` and `Sw` are the accesses of a step, and the advance leaves what their checks look at. -/
theorem accessFailed_of_step {s left : State} {e : MemoryError} (h : step s = .fault (.raised (.memory e) left)) :
    AccessFailed s e := by
  rcases step_phases (not_poisoned_of_step_fault h) with ⟨f, hf, hs⟩ | ⟨w, -, ⟨f, -, hs⟩ | ⟨i, -, hs⟩⟩ <;> rw [hs] at h
  · cases h; exact accessFailed_of_memRead hf
  · cases h
  · exact (accessFailed_of_exec h).congr rfl rfl

/-! ## Which errors a failed access can be -/

theorem checkAccess_ne_outOfMemory (s : State) (p : Permission) (a : Word) (n : Nat) :
    checkAccess s p a n ≠ .error .outOfMemory := by
  intro h
  rcases checkAccess_error h with ⟨he, -⟩ | ⟨he, -⟩ | ⟨he, -⟩ <;> cases he

theorem not_accessFailed_outOfMemory (s : State) : ¬ AccessFailed s .outOfMemory
  | .read h => checkAccess_ne_outOfMemory s _ _ _ h
  | .write h => checkAccess_ne_outOfMemory s _ _ _ h

/-- The permission denied is the one the access needs, and some region does not grant it (R155). -/
theorem checkAccess_permissionDenied {s : State} {need p : Permission} {a b : Word} {n : Nat}
    (h : checkAccess s need a n = .error (.permissionDenied p b)) :
    p = need ∧ ∃ k, (s.regions.region k).perms.allows need = false := by
  rcases checkAccess_error h with ⟨he, -⟩ | ⟨he, -⟩ | ⟨he, k, -, hlacks⟩ <;> cases he
  exact ⟨rfl, k, hlacks⟩

/-- Where every region grants Read, only a write can be denied. -/
theorem AccessFailed.denied_eq_write {s : State} {len : Nat} {p : Permission} {a : Word}
    (h : AccessFailed s (.permissionDenied p a)) (hprog : HasProgram s len) : p = .write := by
  cases h with
  | read h =>
    obtain ⟨-, k, hlacks⟩ := checkAccess_permissionDenied h
    exact absurd (hprog.readable k) (Bool.eq_false_iff.1 hlacks)
  | write h => exact (checkAccess_permissionDenied h).1

end Sys2Proof.Machine

namespace Sys2Proof

open Machine

/-- Settles O50: a memory error of a step is a failed access for Read or Write, the regions of R35 all grant Read, and no check
raises `OutOfMemory`. -/
theorem readsAreNeverDenied : Obligations.ReadsAreNeverDenied := by
  refine ⟨fun s left p a hkept h => ?_, fun s left h => not_accessFailed_outOfMemory s (accessFailed_of_step h)⟩
  obtain ⟨len, hprog, -⟩ := hkept.program (not_poisoned_of_step_fault h)
  exact (accessFailed_of_step h).denied_eq_write hprog

end Sys2Proof
end

section
/-! SUPPORT. The family `70_reset_and_hazards.md`: what reset answers (R180), the loads that fail or are refused (R192 to R194), and what
a poisoned machine refuses (R99, R193). -/

namespace Sys2Proof.Machine

/-! ## Reset and construction -/

/-- Reset has a meaning in every state, a poisoned one included (R180, R193). -/
theorem perform_reset (s : State) : perform .reset s = .ok (.ok, State.resetWith s.config) := by
  simp [perform, performReady, State.restart]

theorem State.construct_of_valid {c : Config} (hc : c.Valid) : State.construct c = some (State.resetWith c) := if_pos hc

/-! ## A poisoned machine -/

theorem run_of_poisoned {s : State} (hp : s.poisoned = true) : run s = .refused .machinePoisoned := if_pos hp

theorem perform_of_poisoned {s : State} {op : Operation} (hp : s.poisoned = true) (hop : op ≠ .reset) :
    perform op s = .error .machinePoisoned := by
  simp [perform, hp, hop]

/-! ## Which loads are done -/

theorem perform_load_of_loaded {s : State} (hp : s.poisoned = false) (hl : s.loaded = true) (bytes : List Byte) :
    perform (.load bytes) s = .error .alreadyLoaded :=
  (perform_ready hp _).trans (if_pos hl)

theorem perform_load_of_not_loaded {s : State} (hp : s.poisoned = false) (hl : s.loaded = false) (bytes : List Byte) :
    perform (.load bytes) s = loadProgram bytes s :=
  (perform_ready hp _).trans (if_neg (Bool.eq_false_iff.1 hl))

theorem loadProgram_of_bad_length {bytes : List Byte} (hlen : bytes.length % 4 ≠ 0) (s : State) :
    loadProgram bytes s = .ok (.error (.memory (s.config.loadLenErr bytes.length)), s) := if_pos hlen

/-! ## A program longer than the memory -/

/-- In the load window Code covers the whole program, whatever its bounds were before (R35). -/
theorem Regions.inWindow_covers (rs : Regions) {len : Nat} (hpos : 0 < len) (hlt : len < 2 ^ 32) :
    (rs.inWindow len).code.start = 0 ∧ len ≤ (rs.inWindow len).code.last.toNat + 1 := by
  simp only [Regions.inWindow, if_neg (Nat.ne_of_gt hpos), BitVec.toNat_ofNat, true_and]
  omega

/-- A write at an address of a writable Code region that starts at 0 can fail the capacity check alone. -/
theorem memWrite_error_in_window {s : State} {a v : Word} {w : Width} {e : MemoryError} (hstart : s.regions.code.start = 0)
    (hlast : a.toNat ≤ s.regions.code.last.toNat) (hwrite : s.regions.code.perms.write = true)
    (h : memWrite s a w v = .error e) : e = .outOfBounds := by
  have howner := owner_eq_code hstart hlast
  rcases checkAccess_error (memWrite_error_iff.1 h) with ⟨he, -⟩ | ⟨-, hnone⟩ | ⟨-, k, hk, hdenied⟩
  · exact he
  · rw [howner] at hnone; cases hnone
  · rw [howner] at hk; cases hk
    exact absurd hwrite (Bool.eq_false_iff.1 hdenied)

/-- So the word writes of a program that Code covers can end in no other error. -/
theorem writeWords_error_in_window {bytes : List Byte} {k : Nat} {s t : State} {e : MemoryError}
    (h : writeWords bytes k s = .error (e, t)) (hstart : s.regions.code.start = 0)
    (hcover : k + bytes.length ≤ s.regions.code.last.toNat + 1) (hwrite : s.regions.code.perms.write = true) :
    e = .outOfBounds := by
  fun_induction writeWords bytes k s with
  | case1 b0 b1 b2 b3 rest k s u hw ih =>
    obtain ⟨-, -, hregions, -⟩ := memWrite_sameControl hw
    simp only [List.length_cons] at hcover
    rw [hregions] at ih
    exact ih h hstart (by omega) hwrite
  | case2 b0 b1 b2 b3 rest k s f hw =>
    rw [List.length_cons] at hcover
    have hlast : (BitVec.ofNat 32 k).toNat ≤ s.regions.code.last.toNat := (Nat.mod_le k _).trans (by omega)
    cases h
    exact memWrite_error_in_window hstart hlast hwrite hw
  | case3 => cases h

/-- A program too long for the memory ends at its first word beyond the capacity, since words that were all written would fit. -/
theorem loadProgram_too_long {bytes : List Byte} {s : State} (hlen : bytes.length % 4 = 0)
    (hlong : s.config.memSize < bytes.length) (hlt : bytes.length < 2 ^ 32) :
    ∃ u : State, loadProgram bytes s = .ok (.error (.memory .outOfBounds), { u with poisoned := true }) := by
  obtain ⟨hstart, hcover⟩ := s.regions.inWindow_covers (Nat.zero_lt_of_lt hlong) hlt
  rw [loadProgram, if_neg (not_not.2 hlen), if_neg (Nat.not_le.2 hlt), openWindow_eq]
  cases hw : writeWords bytes 0 { s with regions := s.regions.inWindow bytes.length } with
  | ok t =>
    have hfit := writeWords_ok_fits hw hlen (Nat.zero_le _) (hlong.trans hlt)
    dsimp only at hfit
    omega
  | error x =>
    obtain ⟨e, u⟩ := x
    cases writeWords_error_in_window hw hstart (by simpa using hcover) rfl
    exact ⟨u, rfl⟩

end Sys2Proof.Machine

namespace Sys2Proof

open Machine

/-- Settles O57: the load window covers the whole program, so only the capacity check can stop its words, and it must. -/
theorem failedLoadPoisons : Obligations.FailedLoadPoisons := by
  refine ⟨fun s bytes _ hp hl hlen hlong hlt => ?_, fun s hp => ?_⟩
  · obtain ⟨u, hload⟩ := loadProgram_too_long hlen hlong hlt
    exact ⟨_, (perform_load_of_not_loaded hp hl bytes).trans hload, rfl⟩
  · exact ⟨step_of_poisoned hp, run_of_poisoned hp, fun _ hop => perform_of_poisoned hp hop, _, perform_reset s, rfl⟩

/-- Settles O1: reset and construction both answer the reset state of the configuration, whose Stack bounds are in range. -/
theorem resetLeavesTheSpecifiedState : Obligations.ResetLeavesTheSpecifiedState :=
  fun s hc => ⟨_, perform_reset s, State.construct_of_valid hc, resetWith_readReg _, rfl, rfl, rfl, rfl, resetWith_byteAt _,
    rfl, rfl, rfl, stackLow_toNat hc, stackTop_toNat hc, rfl, rfl⟩

/-- Settles O56: the length is judged before the window opens, and an empty table of exceptions gives the default of D16. -/
theorem badLengthLoadChangesNothing : Obligations.BadLengthLoadChangesNothing :=
  fun s bytes hp hl hlen =>
    ⟨(perform_load_of_not_loaded hp hl bytes).trans (loadProgram_of_bad_length hlen s), fun htable => by
      simp [Config.loadLenErr, htable]⟩

/-- Settles O58: `loaded` is tested before the program is looked at. -/
theorem secondLoadIsRefused : Obligations.SecondLoadIsRefused :=
  fun _ bytes hp hl => perform_load_of_loaded hp hl bytes

end Sys2Proof
end
